-- ==== Sys2Proof/Word.lean ====
section
/-! DEFINITION. The byte and the fixed sizes of the LS-8 CORE (spec/00_scope.md R5 to R7, R10). -/

namespace Sys2Proof

/-- A Byte (R10): eight bits, numbered from 0 for the least significant (R9), read as an unsigned number. -/
abbrev Byte := BitVec 8

/-- The register file has eight registers (R5, R20). -/
abbrev registerCount : Nat := 8

/-- Memory has 256 byte cells, addresses 0 to 255 (R6, R40). -/
abbrev memorySize : Nat := 256

end Sys2Proof
end

