-- ==== Sys2Proof/Config.lean ====
section
/-! DEFINITION. The parameters of the hardware (spec/00_scope.md R8): `OPCODE_MAP` and `STEP_LIMIT`. Their default
values stand in Decode.lean (`ls8Default`, `ls8Config`). -/

namespace Sys2Proof

/-- The symbolic operation names: the 31 instructions the core admits (R3). -/
inductive Mnemonic where
  | add | sub | mul | div | mod | inc | dec | cmp | and | not | or | xor | shl | shr
  | push | pop | call | ret | jmp | jeq | jne | jgt | jlt | jle | jge
  | ldi | prn | pra | hlt | int | iret
  deriving DecidableEq, Repr

/-- One row of an opcode map: the byte that spells an instruction (R65). -/
structure OpcodeRow where
  opcode : Byte
  mnemonic : Mnemonic
  deriving DecidableEq, Repr

/-- `OPCODE_MAP` (R8): a partial map from opcode bytes to mnemonics, as a list of rows. A byte with no row is
illegal (R69). -/
abbrev OpcodeMap := List OpcodeRow

/-- The parameters the model takes (R8). -/
structure Config where
  /-- `OPCODE_MAP`: which byte spells which instruction. -/
  opcodeMap : OpcodeMap
  /-- `STEP_LIMIT`: `none` is unbounded; `some n` stops the core after n begun instructions (R81). -/
  stepLimit : Option Nat
  deriving DecidableEq, Repr

end Sys2Proof
end

