-- ==== Sys2Proof/Syntax.lean ====
section
/-! DEFINITION. The instructions as syntax: one constructor per row of spec/opcode_table.json (R3, R63, R67). -/

namespace Sys2Proof

/-- An instruction with its operand bytes. Operand A is the byte at pc+1 and operand B the byte at pc+2 (R63, R84).
A register operand is the WHOLE operand byte, 0 to 255 (R24, R64, R70): a value above 7 is a legal operand byte,
and raises a fault only when the instruction uses it as a register. -/
inductive Instr where
  -- format RR: two register operands
  | add (a b : Byte)
  | sub (a b : Byte)
  | mul (a b : Byte)
  | div (a b : Byte)
  | mod (a b : Byte)
  -- format R: one register operand
  | inc (a : Byte)
  | dec (a : Byte)
  | cmp (a b : Byte)
  | and (a b : Byte)
  | not (a : Byte)
  | or (a b : Byte)
  | xor (a b : Byte)
  | shl (a b : Byte)
  | shr (a b : Byte)
  | push (a : Byte)
  | pop (a : Byte)
  | call (a : Byte)
  -- format N: no operand
  | ret
  | jmp (a : Byte)
  | jeq (a : Byte)
  | jne (a : Byte)
  | jgt (a : Byte)
  | jlt (a : Byte)
  | jle (a : Byte)
  | jge (a : Byte)
  -- format RI: a register operand and an immediate
  | ldi (a imm : Byte)
  | prn (a : Byte)
  -- PRA and INT carry an operand byte that they do not interpret (R152, R154)
  | pra (a : Byte)
  | hlt
  | int (a : Byte)
  | iret
  deriving DecidableEq, Repr

end Sys2Proof
end

