-- ==== Sys2Proof/Decode.lean ====
section
/-! DEFINITION. The opcode byte's fields, the default opcode map, the decoder and the encoder (spec/30_encoding.md). -/

namespace Sys2Proof

/-! ## The opcode byte (R61, R62, R66) -/

/-- Bits 7:6, the operand count `AA` (R61). -/
def opcodeOperandCount (op : Byte) : Nat := (op.extractLsb' 6 2).toNat

/-- Bit 5, `B`: the instruction is an ALU operation (R61). -/
def opcodeIsAlu (op : Byte) : Bool := op.getLsbD 5

/-- Bit 4, `C`: the instruction "mutates PC directly" (R61). It drives no rule (90_conflicts.md C6). -/
def opcodeMutatesPc (op : Byte) : Bool := op.getLsbD 4

/-- Bits 3:0, the operation identifier `DDDD` (R61). -/
def opcodeIdentifier (op : Byte) : BitVec 4 := op.extractLsb' 0 4

/-- The length of an instruction in bytes, read from its first byte alone (R62, R71). -/
def opcodeLength (op : Byte) : Nat := 1 + opcodeOperandCount op

/-- The operand categories (R66). The source's fifth, `PCMutator`, changes no rule and has no constructor. -/
inductive Category where
  | alu | noOperand | oneOperand | twoOperand
  deriving DecidableEq, Repr

/-- The operand category follows from the opcode bits (R66). An operand count of 3 belongs to no category (R62). -/
def opcodeCategory (op : Byte) : Option Category :=
  match opcodeOperandCount op with
  | 0 => some (if opcodeIsAlu op then .alu else .noOperand)
  | 1 => some (if opcodeIsAlu op then .alu else .oneOperand)
  | 2 => some (if opcodeIsAlu op then .alu else .twoOperand)
  | _ => none

/-! ## What each mnemonic is (R63, R68) -/

/-- The operand count of each instruction (R63, R68). -/
def Mnemonic.operandCount : Mnemonic → Nat
  | .add | .sub | .mul | .div | .mod | .cmp | .and | .or | .xor | .shl | .shr | .ldi => 2
  | .inc | .dec | .not | .push | .pop | .call | .jmp | .jeq | .jne | .jgt | .jlt | .jle | .jge
  | .prn | .pra | .int => 1
  | .ret | .hlt | .iret => 0

/-- The 14 ALU operations (R66, R68). -/
def Mnemonic.isAlu : Mnemonic → Bool
  | .add | .sub | .mul | .div | .mod | .inc | .dec | .cmp | .and | .not | .or | .xor | .shl | .shr => true
  | .push | .pop | .call | .ret | .jmp | .jeq | .jne | .jgt | .jlt | .jle | .jge
  | .ldi | .prn | .pra | .hlt | .int | .iret => false

/-- The nine sets-PC instructions, whose own rule writes pc (R14, R86). INT and IRET are not among them (C6). -/
def Mnemonic.setsPc : Mnemonic → Bool
  | .call | .ret | .jmp | .jeq | .jne | .jgt | .jlt | .jle | .jge => true
  | .add | .sub | .mul | .div | .mod | .inc | .dec | .cmp | .and | .not | .or | .xor | .shl | .shr
  | .push | .pop | .ldi | .prn | .pra | .hlt | .int | .iret => false

/-! ## The default opcode map (R67) -/

/-- The default opcode of each instruction, in the binary form of the table of R67. Bits 3:0 are the spec's from
general knowledge (UNVERIFIED, notes/assumptions/1.md); bits 7:4 are checked by R68. -/
def Mnemonic.ls8Opcode : Mnemonic → Byte
  | .add  => 0b10100000#8
  | .sub  => 0b10100001#8
  | .mul  => 0b10100010#8
  | .div  => 0b10100011#8
  | .mod  => 0b10100100#8
  | .inc  => 0b01100101#8
  | .dec  => 0b01100110#8
  | .cmp  => 0b10100111#8
  | .and  => 0b10101000#8
  | .not  => 0b01101001#8
  | .or   => 0b10101010#8
  | .xor  => 0b10101011#8
  | .shl  => 0b10101100#8
  | .shr  => 0b10101101#8
  | .push => 0b01000101#8
  | .pop  => 0b01000110#8
  | .call => 0b01010000#8
  | .ret  => 0b00010001#8
  | .jmp  => 0b01010100#8
  | .jeq  => 0b01010101#8
  | .jne  => 0b01010110#8
  | .jgt  => 0b01010111#8
  | .jlt  => 0b01011000#8
  | .jle  => 0b01011001#8
  | .jge  => 0b01011010#8
  | .ldi  => 0b10000010#8
  | .prn  => 0b01000111#8
  | .pra  => 0b01001000#8
  | .hlt  => 0b00000001#8
  | .int  => 0b01010010#8
  | .iret => 0b00010011#8

/-- Every mnemonic, in the order of the table of R67. -/
def Mnemonic.all : List Mnemonic :=
  [.add, .sub, .mul, .div, .mod, .inc, .dec, .cmp, .and, .not, .or, .xor, .shl, .shr] ++
  [.push, .pop, .call, .ret, .jmp, .jeq, .jne, .jgt, .jlt, .jle, .jge] ++
  [.ldi, .prn, .pra, .hlt, .int, .iret]

/-- `LS8_DEFAULT`, the default value of `OPCODE_MAP`: 31 rows (R8, R67). -/
def ls8Default : OpcodeMap := Mnemonic.all.map fun m => ⟨m.ls8Opcode, m⟩

/-- The default parameters: `OPCODE_MAP = LS8_DEFAULT`, `STEP_LIMIT = none` (R8). -/
def ls8Config : Config := { opcodeMap := ls8Default, stepLimit := none }

/-! ## Decoding (R65, R69, R84) -/

/-- Looking an opcode byte up in the map (R65). A row whose operand count contradicts bits 7:6 of its own byte is no
row of an opcode map (R61, R62; notes/assumptions/2.md) and counts as absent. -/
def OpcodeMap.lookup (m : OpcodeMap) (op : Byte) : Option Mnemonic :=
  match m.find? (fun r => r.opcode == op) with
  | none => none
  | some r => if r.mnemonic.operandCount = opcodeOperandCount op then some r.mnemonic else none

/-- Why a byte list does not decode. -/
inductive DecodeError where
  /-- The opcode byte has no row in the map (R69). -/
  | illegalOpcode (op : Byte)
  /-- The byte `k` places after the opcode byte is not there (k = 0: the opcode byte itself; R82, R84). -/
  | missingByte (k : Nat)
  deriving DecidableEq, Repr

/-- The instruction of a mnemonic with operands A and B (R63). A mnemonic takes as many of them as it has. -/
def Mnemonic.build (m : Mnemonic) (a b : Byte) : Instr :=
  match m with
  | .add => .add a b
  | .sub => .sub a b
  | .mul => .mul a b
  | .div => .div a b
  | .mod => .mod a b
  | .inc => .inc a
  | .dec => .dec a
  | .cmp => .cmp a b
  | .and => .and a b
  | .not => .not a
  | .or => .or a b
  | .xor => .xor a b
  | .shl => .shl a b
  | .shr => .shr a b
  | .push => .push a
  | .pop => .pop a
  | .call => .call a
  | .ret => .ret
  | .jmp => .jmp a
  | .jeq => .jeq a
  | .jne => .jne a
  | .jgt => .jgt a
  | .jlt => .jlt a
  | .jle => .jle a
  | .jge => .jge a
  | .ldi => .ldi a b
  | .prn => .prn a
  | .pra => .pra a
  | .hlt => .hlt
  | .int => .int a
  | .iret => .iret

/-- The operand bytes of an instruction whose opcode byte announces n of them (R84): the first missing one is named. -/
def decodeOperands (m : Mnemonic) (n : Nat) (rest : List Byte) : Except DecodeError (Instr × List Byte) :=
  match n, rest with
  | 0, rest => .ok (m.build 0#8 0#8, rest)
  | 1, a :: rest => .ok (m.build a 0#8, rest)
  | 2, a :: b :: rest => .ok (m.build a b, rest)
  | _, rest => .error (.missingByte (rest.length + 1))

/-- Decoding a byte list under an opcode map: the instruction at its head and the bytes after it (R60, R65, R84).
Total: every byte list is decoded or rejected by name. -/
def decodeWith (m : OpcodeMap) : List Byte → Except DecodeError (Instr × List Byte)
  | [] => .error (.missingByte 0)
  | op :: rest =>
    match m.lookup op with
    | none => .error (.illegalOpcode op)
    | some mn => decodeOperands mn (opcodeOperandCount op) rest

/-- Decoding under the default opcode map. -/
def decode (bytes : List Byte) : Except DecodeError (Instr × List Byte) := decodeWith ls8Default bytes

/-! ## Encoding (R60, R63, R67) -/

/-- The mnemonic of an instruction. -/
def Instr.mnemonic : Instr → Mnemonic
  | .add _ _ => .add
  | .sub _ _ => .sub
  | .mul _ _ => .mul
  | .div _ _ => .div
  | .mod _ _ => .mod
  | .inc _ => .inc
  | .dec _ => .dec
  | .cmp _ _ => .cmp
  | .and _ _ => .and
  | .not _ => .not
  | .or _ _ => .or
  | .xor _ _ => .xor
  | .shl _ _ => .shl
  | .shr _ _ => .shr
  | .push _ => .push
  | .pop _ => .pop
  | .call _ => .call
  | .ret => .ret
  | .jmp _ => .jmp
  | .jeq _ => .jeq
  | .jne _ => .jne
  | .jgt _ => .jgt
  | .jlt _ => .jlt
  | .jle _ => .jle
  | .jge _ => .jge
  | .ldi _ _ => .ldi
  | .prn _ => .prn
  | .pra _ => .pra
  | .hlt => .hlt
  | .int _ => .int
  | .iret => .iret

/-- The operand bytes of an instruction, in the order they follow the opcode byte (R63). -/
def Instr.operands : Instr → List Byte
  | .add a b | .sub a b | .mul a b | .div a b | .mod a b | .cmp a b | .and a b | .or a b | .xor a b
  | .shl a b | .shr a b => [a, b]
  | .ldi a imm => [a, imm]
  | .inc a | .dec a | .not a | .push a | .pop a | .call a | .jmp a | .jeq a | .jne a | .jgt a | .jlt a | .jle a
  | .jge a | .prn a | .pra a | .int a => [a]
  | .ret | .hlt | .iret => []

/-- The length of an instruction: 1 + its operand count (R14, R62). -/
def Instr.length (i : Instr) : Nat := 1 + i.mnemonic.operandCount

/-- The opcode byte a map gives a mnemonic: the first row that names it and agrees with bits 7:6 of its byte. -/
def OpcodeMap.opcodeOf (m : OpcodeMap) (mn : Mnemonic) : Option Byte :=
  (m.find? fun r => r.mnemonic == mn && mn.operandCount == opcodeOperandCount r.opcode).map OpcodeRow.opcode

/-- The bytes of an instruction under an opcode map; none where the map has no row for it. -/
def encodeWith (m : OpcodeMap) (i : Instr) : Option (List Byte) :=
  (m.opcodeOf i.mnemonic).map (· :: i.operands)

/-- The bytes of an instruction under the default opcode map (R60, R67). -/
def encode (i : Instr) : List Byte := i.mnemonic.ls8Opcode :: i.operands

/-! ## The host's numbering of an instruction's bits -/

/-- The `k`-th byte of a number whose bit 0 is bit 0 of the first byte. -/
def wordByte (w k : Nat) : Byte := BitVec.ofNat 8 (w / 2 ^ (8 * k))

/-- The bytes of the host's instruction number, as long as the longest instruction (3 bytes, R7), with every bit
from `nbits` up zero. -/
def wordBytes (nbits w : Nat) : List Byte :=
  let v := w % 2 ^ nbits
  [wordByte v 0, wordByte v 1, wordByte v 2]

/-- The instruction the decoder reads from the host's instruction number. -/
def decodeTableWord (nbits w : Nat) : Option Instr :=
  match decode (wordBytes nbits w) with
  | .ok (i, _) => some i
  | .error _ => none

end Sys2Proof
end

