-- ==== Sys2Proof/Machine/State.lean ====
section
/-! DEFINITION. The state of the core (spec/10_state.md), what a step may stop with, and the state after reset. -/

namespace Sys2Proof.Machine

/-- The faults the core detects (spec/60_exceptions.md R171), each with the info its `Diag` event records besides the
pc. A fault is not a stop of the model: it is an entry into `RunState.faulted`, a next state (R175). -/
inductive CoreFault where
  /-- The opcode byte has no row in `OPCODE_MAP`. -/
  | illegalOpcode (op : Byte)
  /-- DIV or MOD with a zero divisor. -/
  | divideByZero
  /-- An operand byte above 7 used as a register index. -/
  | registerIndex (index : Byte)
  /-- An instruction byte's address is above 255. -/
  | fetchOutOfRange (addr : Nat)
  /-- CALL's return address pc + 2 does not fit a byte. -/
  | returnAddressOutOfRange (addr : Nat)
  /-- A read of a register no instruction has written since reset. -/
  | uninitialisedRegister (index : Byte)
  deriving DecidableEq, Repr

/-- The run state (R34). -/
inductive RunState where
  | running
  | halted
  | faulted (f : CoreFault)
  | stepLimitReached
  deriving DecidableEq, Repr

/-- The recognised but unimplemented instructions (R178). -/
inductive Stub where
  | pra | int | iret
  deriving DecidableEq, Repr

/-- The output events (R36). -/
inductive Event where
  /-- PRN wrote the decimal value of a byte. -/
  | prn (v : Byte)
  /-- An unimplemented instruction executed at an address. -/
  | unimplemented (m : Stub) (addr : Nat)
  /-- A fault was raised by the instruction at an address (R172). -/
  | diag (f : CoreFault) (addr : Nat)
  deriving DecidableEq, Repr

/-- The 256-cell byte memory (R33, R40): the cells that differ from what an unlisted address reads as, at strictly
rising addresses (`Memory.wf` in Ops.lean). -/
abbrev Memory := List Host.Cell

/-- The whole state of the core (the record at the head of spec/10_state.md; R37 says there is no other). -/
structure State where
  /-- R0 to R7 (R20): R4 is FL, R5 is IM, R6 is IS, R7 is SP (R21). `none` is the spec's state "unwritten" (R22). -/
  regs : Vector (Option Byte) registerCount
  /-- The program counter, a natural number that does not wrap (R25). -/
  pc : Nat
  /-- The memory that holds code and stack (R33, R40). -/
  mem : Memory
  /-- The run state (R34). -/
  run : RunState
  /-- The number of instructions begun (R35). -/
  steps : Nat
  /-- The events emitted, oldest first (R36). -/
  out : List Event
  deriving DecidableEq, Repr

/-- Why the model gives no next state. -/
inductive Fault where
  /-- Raised by `step` alone, when the run state is not `Running`: "In any other run state it has no step" (R80). It
  carries that run state. SAFE: the spec gives the core no step there either. -/
  | notRunning (run : RunState)
  deriving DecidableEq, Repr

/-- Why the model gives no meaning. -/
inductive Refusal where
  /-- Raised by an arm of `exec` for an instruction with no meaning yet; no arm does. SAFE: the model stops. -/
  | notModelled (mnemonic : String)
  deriving DecidableEq, Repr

/-- The machine right after reset with no program image (R38, R190 with N = 0): R0 to R6 unwritten, SP = 255, pc = 0,
every memory cell 0, `Running`, no step begun, no output. A program image enters through `State.boot` (Ops.lean). -/
def State.reset : State where
  regs := #v[none, none, none, none, none, none, none, some 255#8]
  pc := 0
  mem := []
  run := .running
  steps := 0
  out := []

end Sys2Proof.Machine
end

