-- ==== Sys2Proof/WellFormed.lean ====
section
/-! DEFINITION. Well-formedness checks of the inputs: opcode maps (R61, R67, R68), instructions under a map (R65),
program images (R194). Operand bytes need no check: every value 0 to 255 is legal (R70). -/

namespace Sys2Proof

/-- A row's byte agrees with the layout of R61 as R68 checks it: bits 7:6 are the operand count; bit 5 is 1 exactly
for the ALU operations; bit 4 is 1 for the nine sets-PC instructions and 0 for every other but INT and IRET, for
which it drives nothing (90_conflicts.md C6). -/
def OpcodeRow.wellFormed (r : OpcodeRow) : Bool :=
  opcodeOperandCount r.opcode == r.mnemonic.operandCount &&
  opcodeIsAlu r.opcode == r.mnemonic.isAlu &&
  (r.mnemonic == .int || r.mnemonic == .iret || opcodeMutatesPc r.opcode == r.mnemonic.setsPc)

/-- No opcode byte has two rows: the list is a partial map (R8). -/
def OpcodeMap.functional (m : OpcodeMap) : Bool := decide (m.map OpcodeRow.opcode).Nodup

/-- A well-formed opcode map: a partial map each of whose rows has the layout of R61. -/
def OpcodeMap.wellFormed (m : OpcodeMap) : Bool := m.functional && m.all OpcodeRow.wellFormed

/-- An instruction is well formed under a map when the map has a row that spells it (R65). -/
def Instr.wellFormed (m : OpcodeMap) (i : Instr) : Bool := (m.opcodeOf i.mnemonic).isSome

/-- A program image the host may load: at most 256 bytes (R194). -/
def imageWellFormed (image : List Byte) : Bool := decide (image.length ≤ memorySize)

end Sys2Proof
end

