-- ==== Sys2Proof/Machine/Ops.lean ====
section
/-! DEFINITION. The named operations on registers, memory and output, taking a fault, and the reset with a program
image (the primitives of spec/00_scope.md R11). -/

namespace Sys2Proof.Machine

/-! ## Registers (R20 to R24) -/

/-- FL is register 4 (R21). -/
def regFL : Byte := 4#8
/-- IM is register 5 (R21). -/
def regIM : Byte := 5#8
/-- IS is register 6 (R21). -/
def regIS : Byte := 6#8
/-- SP is register 7 (R21). -/
def regSP : Byte := 7#8

/-- `x[i]` read (R11, R22, R24): `RegisterIndex` above 7, `UninitialisedRegister` where the register is unwritten. -/
def readReg (s : State) (i : Byte) : Except CoreFault Byte :=
  match s.regs[i.toNat]? with
  | none => .error (.registerIndex i)
  | some none => .error (.uninitialisedRegister i)
  | some (some v) => .ok v

/-- The state with register i written; nothing where there is no register i. -/
def State.setReg (s : State) (i v : Byte) : State :=
  { s with regs := s.regs.setIfInBounds i.toNat (some v) }

/-- `x[i] <- v` (R11, R24): `RegisterIndex` above 7; after it, register i is written. -/
def writeReg (s : State) (i v : Byte) : Except CoreFault State :=
  if i.toNat < registerCount then .ok (s.setReg i v) else .error (.registerIndex i)

/-! ## Memory (R40 to R42) -/

/-- What an address the list does not name reads as: 0, "contents reset to zero at load time" (R33, R38). -/
def Memory.unlisted (_addr : Nat) : Byte := 0#8

/-- `MemRead(addr, 1)` (R41). -/
def Memory.read : Memory → Nat → Byte
  | [], a => Memory.unlisted a
  | (k, v) :: m, a => if k = a then v else Memory.read m a

/-- A cell put before a memory, unless it holds what an unlisted address reads as. -/
def Memory.cons (a : Nat) (v : Byte) (m : Memory) : Memory :=
  if v = Memory.unlisted a then m else (a, v) :: m

/-- `MemWrite(addr, 1, v)` (R42), keeping the canonical form. -/
def Memory.write : Memory → Nat → Byte → Memory
  | [], a, v => Memory.cons a v []
  | (k, w) :: m, a, v =>
    if a < k then Memory.cons a v ((k, w) :: m)
    else if a = k then Memory.cons a v m
    else (k, w) :: Memory.write m a v

/-- The canonical form: strictly rising addresses below 256, no cell equal to what its address reads as unlisted. -/
def Memory.wf (m : Memory) : Bool :=
  decide (m.Pairwise fun x y => x.1 < y.1) &&
  m.all fun c => decide (c.1 < memorySize) && decide (c.2 ≠ Memory.unlisted c.1)

/-- Bytes written to consecutive ascending addresses from `a` (R73, R190). -/
def Memory.writeBytes : Memory → Nat → List Byte → Memory
  | m, _, [] => m
  | m, a, v :: vs => Memory.writeBytes (Memory.write m a v) (a + 1) vs

/-! ## Output, faults, and the end of an instruction -/

/-- `emit(e)`: the event goes to the end of the output (R11, R36). -/
def emit (s : State) (e : Event) : State := { s with out := s.out ++ [e] }

/-- The spec's own code of a fault (R171). -/
def CoreFault.code : CoreFault → Nat
  | .illegalOpcode _ => 1
  | .divideByZero => 2
  | .registerIndex _ => 3
  | .fetchOutOfRange _ => 4
  | .returnAddressOutOfRange _ => 5
  | .uninitialisedRegister _ => 6

/-- TAKING A FAULT (R172, R175): the run state becomes `Faulted(f)` and `Diag(f, pc)` is appended to the output;
registers, memory and pc stay as they were before the instruction. There is no handler, no saved pc and no mode
change (R170), and no return from a fault: `Faulted` is terminal (R176), so there is no operation for one. -/
def takeFault (s : State) (f : CoreFault) : State :=
  emit { s with run := .faulted f } (.diag f s.pc)

/-- The end of an instruction begun in state `s` (R12, R85): its effect as a whole, or the fault it raised and none of
its writes. -/
def complete (s : State) (effect : Except CoreFault State) : Host.Outcome State Fault Refusal :=
  match effect with
  | .ok t => .next t
  | .error f => .next (takeFault s f)

/-- The dispatcher's pc update for an instruction that does not set pc itself (R86): pc plus the length. -/
def advance (i : Instr) (effect : Except CoreFault State) : Except CoreFault State :=
  match effect with
  | .ok t => .ok { t with pc := t.pc + i.length }
  | .error f => .error f

/-! ## Reset with a program image (R190, R194) -/

/-- The reset sequence of R190 for a program image: memory zero, the image at 0 to N-1, the rest as `State.reset`. The
host refuses an image of more than 256 bytes, and the core does not start with one (R194). -/
def State.boot (image : List Byte) : Option State :=
  if imageWellFormed image then
    some { State.reset with mem := Memory.writeBytes State.reset.mem 0 image }
  else none

end Sys2Proof.Machine
end

