-- ==== Sys2Proof/Machine/Operands.lean ====
section
/-! DEFINITION. The operand forms: register operands of the ALU (R100), and the stack's two addressing modes (R43). -/

namespace Sys2Proof.Machine

/-- A two-operand ALU operation that writes operand A (R100): x[a] is read before x[b] (R101). -/
def regReg (f : Byte → Byte → Except CoreFault Byte) (a b : Byte) (s : State) : Except CoreFault State := do
  let va ← readReg s a
  let vb ← readReg s b
  let v ← f va vb
  writeReg s a v

/-- A one-operand ALU operation (R106, R107, R111): there is no operand B. -/
def regOnly (f : Byte → Byte) (a : Byte) (s : State) : Except CoreFault State := do
  let va ← readReg s a
  writeReg s a (f va)

/-- `SP <- (SP - 1) mod 256` (R29, R131). -/
def decSP (s : State) : Except CoreFault State := do
  let sp ← readReg s regSP
  writeReg s regSP (sp - 1#8)

/-- `SP <- (SP + 1) mod 256` (R29, R132). -/
def incSP (s : State) : Except CoreFault State := do
  let sp ← readReg s regSP
  writeReg s regSP (sp + 1#8)

/-- `MemWrite(SP, 1, v)` (R42). -/
def storeTop (s : State) (v : Byte) : Except CoreFault State := do
  let sp ← readReg s regSP
  .ok { s with mem := s.mem.write sp.toNat v }

/-- `MemRead(SP, 1)` (R41). -/
def loadTop (s : State) : Except CoreFault Byte := do
  let sp ← readReg s regSP
  .ok (s.mem.read sp.toNat)

/-- `pc <- target` for a target byte (R130): always 0 to 255. -/
def jumpTo (s : State) (target : Byte) : State := { s with pc := target.toNat }

end Sys2Proof.Machine
end

