-- ==== Sys2Proof/Machine/Flags.lean ====
section
/-! DEFINITION. The flags register: its bits (R26), what CMP writes there (R114), what the jumps test (R136). -/

namespace Sys2Proof.Machine

/-- Bit 0 of FL: Equal (R26). -/
def flagE (fl : Byte) : Bool := fl.getLsbD 0
/-- Bit 1 of FL: Greater-than (R26). -/
def flagG (fl : Byte) : Bool := fl.getLsbD 1
/-- Bit 2 of FL: Less-than (R26). -/
def flagL (fl : Byte) : Bool := fl.getLsbD 2

/-- A flag bit as a byte. -/
def flagBit (b : Bool) : Byte := if b then 1#8 else 0#8

/-- The byte CMP writes to FL (R114): `(L << 2) | (G << 1) | E`, with bits 7:3 zero. The comparison is unsigned. -/
def compareFlags (va vb : Byte) : Byte :=
  (flagBit (decide (va < vb)) <<< 2) ||| (flagBit (decide (vb < va)) <<< 1) ||| flagBit (decide (va = vb))

/-- A conditional jump (R136): FL is read first and always; operand A is used only when the condition holds. -/
def condJump (i : Instr) (cond : (E G L : Bool) → Bool) (a : Byte) (s : State) : Except CoreFault State := do
  let f ← readReg s regFL
  if cond (flagE f) (flagG f) (flagL f) then
    let target ← readReg s a
    .ok (jumpTo s target)
  else
    .ok { s with pc := s.pc + i.length }

end Sys2Proof.Machine
end

