-- ==== Sys2Proof/Machine/Alu.lean ====
section
/-! DEFINITION. The 14 ALU instructions (spec/41_alu.md). All values are unsigned bytes and every result is taken
mod 256 (R100). -/

namespace Sys2Proof.Machine

/-- ADD (R101). -/
def execAdd (a b : Byte) (s : State) : Host.Outcome State Fault Refusal :=
  complete s (advance (.add a b) (regReg (fun x y => .ok (x + y)) a b s))

/-- SUB (R102): a borrow wraps. -/
def execSub (a b : Byte) (s : State) : Host.Outcome State Fault Refusal :=
  complete s (advance (.sub a b) (regReg (fun x y => .ok (x - y)) a b s))

/-- MUL (R103): the low byte of the product. -/
def execMul (a b : Byte) (s : State) : Host.Outcome State Fault Refusal :=
  complete s (advance (.mul a b) (regReg (fun x y => .ok (x * y)) a b s))

/-- The quotient of DIV (R104): a zero divisor raises. -/
def divide (x y : Byte) : Except CoreFault Byte :=
  if y = 0#8 then .error .divideByZero else .ok (x / y)

/-- The remainder of MOD (R105): a zero divisor raises. -/
def remainder (x y : Byte) : Except CoreFault Byte :=
  if y = 0#8 then .error .divideByZero else .ok (x % y)

/-- DIV (R104). -/
def execDiv (a b : Byte) (s : State) : Host.Outcome State Fault Refusal :=
  complete s (advance (.div a b) (regReg divide a b s))

/-- MOD (R105). -/
def execMod (a b : Byte) (s : State) : Host.Outcome State Fault Refusal :=
  complete s (advance (.mod a b) (regReg remainder a b s))

/-- INC (R106). -/
def execInc (a : Byte) (s : State) : Host.Outcome State Fault Refusal :=
  complete s (advance (.inc a) (regOnly (fun x => x + 1#8) a s))

/-- DEC (R107). -/
def execDec (a : Byte) (s : State) : Host.Outcome State Fault Refusal :=
  complete s (advance (.dec a) (regOnly (fun x => x - 1#8) a s))

/-- AND (R108). -/
def execAnd (a b : Byte) (s : State) : Host.Outcome State Fault Refusal :=
  complete s (advance (.and a b) (regReg (fun x y => .ok (x &&& y)) a b s))

/-- OR (R109). -/
def execOr (a b : Byte) (s : State) : Host.Outcome State Fault Refusal :=
  complete s (advance (.or a b) (regReg (fun x y => .ok (x ||| y)) a b s))

/-- XOR (R110). -/
def execXor (a b : Byte) (s : State) : Host.Outcome State Fault Refusal :=
  complete s (advance (.xor a b) (regReg (fun x y => .ok (x ^^^ y)) a b s))

/-- NOT (R111). -/
def execNot (a : Byte) (s : State) : Host.Outcome State Fault Refusal :=
  complete s (advance (.not a) (regOnly (fun x => ~~~x) a s))

/-- SHL (R112): the count is the whole byte, unmasked; 8 or more gives 0. -/
def execShl (a b : Byte) (s : State) : Host.Outcome State Fault Refusal :=
  complete s (advance (.shl a b) (regReg (fun x y => .ok (x <<< y.toNat)) a b s))

/-- SHR (R113): logical, the count unmasked. -/
def execShr (a b : Byte) (s : State) : Host.Outcome State Fault Refusal :=
  complete s (advance (.shr a b) (regReg (fun x y => .ok (x >>> y.toNat)) a b s))

/-- CMP's effect (R114): FL is written, neither operand is, and FL's old value is read only if an operand names it. -/
def compareOperands (a b : Byte) (s : State) : Except CoreFault State := do
  let va ← readReg s a
  let vb ← readReg s b
  writeReg s regFL (compareFlags va vb)

/-- CMP (R114). -/
def execCmp (a b : Byte) (s : State) : Host.Outcome State Fault Refusal :=
  complete s (advance (.cmp a b) (compareOperands a b s))

end Sys2Proof.Machine
end

