-- ==== Sys2Proof/Machine/Control.lean ====
section
/-! DEFINITION. Stack and control-transfer instructions (spec/42_control_transfer.md). The statements run in the order
the spec writes them (R11, D18), so an operand that names R7 sees the SP the earlier statement left. -/

namespace Sys2Proof.Machine

/-- PUSH's effect (R131): `SP <- (SP - 1) mod 256; MemWrite(SP, 1, x[a])`. -/
def push (a : Byte) (s : State) : Except CoreFault State := do
  let s₁ ← decSP s
  let v ← readReg s₁ a
  storeTop s₁ v

/-- PUSH (R131). -/
def execPush (a : Byte) (s : State) : Host.Outcome State Fault Refusal :=
  complete s (advance (.push a) (push a s))

/-- POP's effect (R132): `x[a] <- MemRead(SP, 1); SP <- (SP + 1) mod 256`. -/
def pop (a : Byte) (s : State) : Except CoreFault State := do
  let v ← loadTop s
  let s₁ ← writeReg s a v
  incSP s₁

/-- POP (R132). -/
def execPop (a : Byte) (s : State) : Host.Outcome State Fault Refusal :=
  complete s (advance (.pop a) (pop a s))

/-- CALL's return address (R133): `pc + 2`, the address of the instruction after CALL. -/
def returnAddress (s : State) : Nat := s.pc + 2

/-- CALL's effect (R133): the return address must fit a byte; it is pushed; then pc takes x[a]. -/
def call (a : Byte) (s : State) : Except CoreFault State := do
  if returnAddress s > 255 then
    .error (.returnAddressOutOfRange (returnAddress s))
  else
    let s₁ ← decSP s
    let s₂ ← storeTop s₁ (BitVec.ofNat 8 (returnAddress s))
    let target ← readReg s₂ a
    .ok (jumpTo s₂ target)

/-- CALL (R133). -/
def execCall (a : Byte) (s : State) : Host.Outcome State Fault Refusal :=
  complete s (call a s)

/-- RET's effect (R134): `pc <- MemRead(SP, 1); SP <- (SP + 1) mod 256`. -/
def ret (s : State) : Except CoreFault State := do
  let target ← loadTop s
  incSP (jumpTo s target)

/-- RET (R134). -/
def execRet (s : State) : Host.Outcome State Fault Refusal :=
  complete s (ret s)

/-- JMP's effect (R135). -/
def jump (a : Byte) (s : State) : Except CoreFault State := do
  let target ← readReg s a
  .ok (jumpTo s target)

/-- JMP (R135). -/
def execJmp (a : Byte) (s : State) : Host.Outcome State Fault Refusal :=
  complete s (jump a s)

/-- JEQ (R137). -/
def execJeq (a : Byte) (s : State) : Host.Outcome State Fault Refusal :=
  complete s (condJump (.jeq a) (fun E _ _ => E) a s)

/-- JNE (R138). -/
def execJne (a : Byte) (s : State) : Host.Outcome State Fault Refusal :=
  complete s (condJump (.jne a) (fun E _ _ => !E) a s)

/-- JGT (R139). -/
def execJgt (a : Byte) (s : State) : Host.Outcome State Fault Refusal :=
  complete s (condJump (.jgt a) (fun _ G _ => G) a s)

/-- JGE (R140). -/
def execJge (a : Byte) (s : State) : Host.Outcome State Fault Refusal :=
  complete s (condJump (.jge a) (fun E G _ => G || E) a s)

/-- JLT (R141). -/
def execJlt (a : Byte) (s : State) : Host.Outcome State Fault Refusal :=
  complete s (condJump (.jlt a) (fun _ _ L => L) a s)

/-- JLE (R142). -/
def execJle (a : Byte) (s : State) : Host.Outcome State Fault Refusal :=
  complete s (condJump (.jle a) (fun E _ L => L || E) a s)

end Sys2Proof.Machine
end

