-- ==== Sys2Proof/Machine/System.lean ====
section
/-! DEFINITION. Load-immediate, output and system instructions (spec/43_load_io_system.md). -/

namespace Sys2Proof.Machine

/-- LDI (R150): it reads no register. -/
def execLdi (a imm : Byte) (s : State) : Host.Outcome State Fault Refusal :=
  complete s (advance (.ldi a imm) (writeReg s a imm))

/-- PRN's effect (R151). -/
def print (a : Byte) (s : State) : Except CoreFault State := do
  let v ← readReg s a
  .ok (emit s (.prn v))

/-- PRN (R151). -/
def execPrn (a : Byte) (s : State) : Host.Outcome State Fault Refusal :=
  complete s (advance (.prn a) (print a s))

/-- The effect of a recognised but unimplemented instruction (R152, R154, R155, R178): the event, and nothing else. -/
def stub (m : Stub) (s : State) : Except CoreFault State := .ok (emit s (.unimplemented m s.pc))

/-- PRA (R152): its operand is not interpreted and no character is written. -/
def execPra (a : Byte) (s : State) : Host.Outcome State Fault Refusal :=
  complete s (advance (.pra a) (stub .pra s))

/-- HLT (R153): pc stays at the HLT (R86). -/
def execHlt (s : State) : Host.Outcome State Fault Refusal :=
  complete s (.ok { s with run := .halted })

/-- INT (R154): no interrupt is raised; IM and IS are neither read nor written. -/
def execInt (a : Byte) (s : State) : Host.Outcome State Fault Refusal :=
  complete s (advance (.int a) (stub .int s))

/-- IRET (R155): nothing is popped or restored. -/
def execIret (s : State) : Host.Outcome State Fault Refusal :=
  complete s (advance .iret (stub .iret s))

end Sys2Proof.Machine
end

