-- ==== Sys2Proof/Machine/Cycle.lean ====
section
/-! DEFINITION. The fetch-decode-execute cycle (spec/40_cycle.md), for any value of the parameters. -/

namespace Sys2Proof.Machine

/-- The step limit stops the core before this step (R81). -/
def limitReached (cfg : Config) (s : State) : Bool :=
  match cfg.stepLimit with
  | none => false
  | some n => decide (n ≤ s.steps)

/-- The bytes the fetch can read at pc: as many as the longest instruction has, but none above address 255
(R82, R84; R7). -/
def fetchWindow (s : State) : List Byte :=
  (List.range' s.pc (min 3 (memorySize - s.pc))).map s.mem.read

/-- Fetch, decode and operand fetch (R82 to R84), reading memory as it stands (R52): the first byte above address 255
raises `FetchOutOfRange` with its address, an opcode byte with no row `IllegalOpcode`. -/
def fetch (cfg : Config) (s : State) : Except CoreFault Instr :=
  match decodeWith cfg.opcodeMap (fetchWindow s) with
  | .ok (i, _) => .ok i
  | .error (.illegalOpcode op) => .error (.illegalOpcode op)
  | .error (.missingByte k) => .error (.fetchOutOfRange (s.pc + k))

/-- The step is counted before any fault can be raised (R35, R82). -/
def beginStep (s : State) : State := { s with steps := s.steps + 1 }

/-- The core's step while it runs (R80 to R86), in the order of R80. -/
def cycle (cfg : Config) (s : State) : Host.Outcome State Fault Refusal :=
  if limitReached cfg s then .next { s with run := .stepLimitReached }
  else
    match fetch cfg (beginStep s) with
    | .ok i => exec i (beginStep s)
    | .error f => .next (takeFault (beginStep s) f)

/-- One step under given parameters (R80): the core steps only while `Running`. -/
def stepWith (cfg : Config) (s : State) : Host.Outcome State Fault Refusal :=
  match s.run with
  | .running => cycle cfg s
  | .halted => .fault (.notRunning .halted)
  | .faulted f => .fault (.notRunning (.faulted f))
  | .stepLimitReached => .fault (.notRunning .stepLimitReached)

/-- Bytes stored at consecutive addresses from `a`, those above address 255 left out. -/
def Memory.place : Memory → Nat → List Byte → Memory
  | m, _, [] => m
  | m, a, v :: vs => Memory.place (if a < memorySize then Memory.write m a v else m) (a + 1) vs

/-- The state with instruction bytes stored where the fetch reads them and the core `Running`, which is all the fetch
needs (notes/assumptions/12.md). -/
def placeAtPc (s : State) (bytes : List Byte) : State :=
  { s with run := .running, mem := Memory.place s.mem s.pc bytes }

end Sys2Proof.Machine
end

