-- ==== Sys2Proof/Machine/Step.lean ====
section
/-! DEFINITION. The step of the hardware: the cycle under the default parameters (R8), and the host's way to store the
next instruction. -/

namespace Sys2Proof.Machine

/-- One step of the core with `OPCODE_MAP = LS8_DEFAULT` and `STEP_LIMIT = none` (R8, R80). -/
def step (s : State) : Host.Outcome State Fault Refusal := stepWith ls8Config s

/-- The state whose next step fetches and runs the host's instruction number. -/
def State.withFetchWord (s : State) (nbits w : Nat) : State := placeAtPc s (wordBytes nbits w)

end Sys2Proof.Machine
end

