-- ==== Sys2Proof/Machine/HostText.lean ====
section
/-! DEFINITION. The text forms outside the core that the spec describes: how the host shows a `Prn` event (R36, D17),
the assembly spelling of an instruction (R72), and the program image's lines (R73). No step uses this file. -/

namespace Sys2Proof.Machine

/-! ## Output text (R36, R151) -/

/-- The host's text of an event: a `Prn(v)` is the decimal digits of v, unsigned, and a newline (R36). The spec gives
the other events no text (91_not_in_source.md N80), so they have none here. -/
def Event.text : Event → Option String
  | .prn v => some (toString v.toNat ++ "\n")
  | .unimplemented _ _ => none
  | .diag _ _ => none

/-! ## Assembly spelling (R72) -/

/-- A register's spelling: R0 to R7 (R72). -/
def regName (i : Byte) : Option String :=
  if i.toNat < registerCount then some ("R" ++ toString i.toNat) else none

/-- The spelling of a mnemonic. -/
def mnemonicName : Mnemonic → String
  | .add => "ADD" | .sub => "SUB" | .mul => "MUL" | .div => "DIV" | .mod => "MOD" | .inc => "INC" | .dec => "DEC"
  | .cmp => "CMP" | .and => "AND" | .not => "NOT" | .or => "OR" | .xor => "XOR" | .shl => "SHL" | .shr => "SHR"
  | .push => "PUSH" | .pop => "POP" | .call => "CALL" | .ret => "RET" | .jmp => "JMP" | .jeq => "JEQ" | .jne => "JNE"
  | .jgt => "JGT" | .jlt => "JLT" | .jle => "JLE" | .jge => "JGE" | .ldi => "LDI" | .prn => "PRN" | .pra => "PRA"
  | .hlt => "HLT" | .int => "INT" | .iret => "IRET"

/-- The assembly line of an instruction (R72): `MNEMONIC`, `MNEMONIC Rn`, `MNEMONIC Ra,Rb`, or `LDI Rn,imm` with a
decimal immediate. An instruction with an operand byte above 7 in a register's place has no spelling. -/
def asmText (i : Instr) : Option String :=
  match i with
  | .ldi a imm => (regName a).map fun ra => "LDI " ++ ra ++ "," ++ toString imm.toNat
  | i =>
    match i.operands with
    | [] => some (mnemonicName i.mnemonic)
    | [a] => (regName a).map fun ra => mnemonicName i.mnemonic ++ " " ++ ra
    | a :: b :: _ => (regName a).bind fun ra => (regName b).map fun rb => mnemonicName i.mnemonic ++ " " ++ ra ++ "," ++ rb

/-! ## The program image (R73) -/

/-- A line of the image as characters. -/
abbrev Line := List Char

/-- White space at the end of a line. -/
def isBlankChar (c : Char) : Bool := c == ' ' || c == '\t' || c == '\n' || c == '\r'

/-- The rest of a line after its byte, or a line with no byte: white space, then nothing or a `#` comment. -/
def isTrailing : Line → Bool
  | [] => true
  | c :: cs => if c == '#' then true else isBlankChar c && isTrailing cs

/-- One binary digit. -/
def digitOf (c : Char) : Option Nat :=
  if c == '0' then some 0 else if c == '1' then some 1 else none

/-- The first `n` characters of a line as a base-2 number, the first of them the most significant digit (R73), put
after the digits of `acc`; and the rest of the line. -/
def parseBits : Nat → Nat → Line → Option (Nat × Line)
  | 0, acc, cs => some (acc, cs)
  | _ + 1, _, [] => none
  | n + 1, acc, c :: cs =>
    match digitOf c with
    | none => none
    | some d => parseBits n (2 * acc + d) cs

/-- What one line of the image is (R73). -/
inductive LineMeaning where
  /-- A blank or comment-only line: skipped. -/
  | skipped
  /-- An 8-character binary line: one byte. -/
  | byte (v : Byte)
  /-- Anything else. The spec gives it no meaning (notes/assumptions/11.md). -/
  | malformed
  deriving DecidableEq, Repr

/-- Reading one line of the image (R73). -/
def parseLine (cs : Line) : LineMeaning :=
  if isTrailing cs then .skipped
  else
    match parseBits 8 0 cs with
    | some (v, rest) => if isTrailing rest then .byte (BitVec.ofNat 8 v) else .malformed
    | none => .malformed

/-- The bytes of a whole image, in order (R73); none where a line is malformed. -/
def parseImage : List Line → Option (List Byte)
  | [] => some []
  | l :: ls =>
    match parseLine l, parseImage ls with
    | .skipped, some vs => some vs
    | .byte v, some vs => some (v :: vs)
    | _, _ => none

end Sys2Proof.Machine
end

