-- ==== Sys2Proof/Safety.lean ====
section
/-! DEFINITION. The terms claims use: the observable result of a run, reachable states, the invariant of the core, and
which registers and faults belong to an instruction. -/

namespace Sys2Proof.Machine

/-! ## Runs (R87, R88) -/

/-- The states of a run from the reset state with a program image (R87), under given parameters. -/
inductive Reachable (cfg : Config) (image : List Byte) : State → Prop where
  | boot {s : State} (h : State.boot image = some s) : Reachable cfg image s
  | step {s t : State} (hs : Reachable cfg image s) (h : stepWith cfg s = .next t) : Reachable cfg image t

/-- The observable result of a run that ends (R88). -/
structure Observation where
  regs : Vector (Option Byte) registerCount
  pc : Nat
  mem : Memory
  run : RunState
  out : List Event
  deriving DecidableEq, Repr

/-- What the host reads of a final state (R88, R185): all of it but the step counter. -/
def State.observe (s : State) : Observation :=
  { regs := s.regs, pc := s.pc, mem := s.mem, run := s.run, out := s.out }

/-- The normal end of a run (R87). -/
def State.NormalEnd (s : State) : Prop := s.run = .halted

/-- The error end of a run (R87). -/
def State.ErrorEnd (s : State) : Prop := ∃ f, s.run = .faulted f

/-! ## Register operands, said of the register file itself (R22, R24) -/

/-- Operand byte i names one of the eight registers, and that register is written and holds v. -/
def State.Holds (s : State) (i v : Byte) : Prop := ∃ r : Fin registerCount, i.toNat = r.val ∧ s.regs[r] = some v

/-- The fault of using operand byte i as a register to read: `RegisterIndex` above 7, `UninitialisedRegister` where the
register it names is unwritten. -/
def State.ReadFault (s : State) (i : Byte) (f : CoreFault) : Prop :=
  (registerCount ≤ i.toNat ∧ f = .registerIndex i) ∨
    ∃ r : Fin registerCount, i.toNat = r.val ∧ s.regs[r] = none ∧ f = .uninitialisedRegister i

/-- Register i is written: it holds a byte (R22). -/
def State.Written (s : State) (i : Byte) : Prop := ∃ v, s.Holds i v

/-! ## The invariant -/

/-- An event that reports a fault. -/
def Event.isDiag : Event → Bool
  | .diag _ _ => true
  | .prn _ => false
  | .unimplemented _ _ => false

/-- What holds of every state of a run under the default parameters: memory is canonical; SP is written (R29, R38); pc
is at most 256 (DEDUCED from R84 and R86: every operand byte was fetched below 256); no more events than begun steps
(R35, R36); the step limit never fires (R81); a halted core stands at an HLT byte (R86, R153); a faulted core has
reported exactly that fault, last and at its pc, and no fault has been reported before one stops the core (R172, R174,
R175). -/
structure State.Inv (s : State) : Prop where
  mem_wf : s.mem.wf = true
  sp_written : s.Written regSP
  pc_le : s.pc ≤ memorySize
  out_le : s.out.length ≤ s.steps
  no_limit : s.run ≠ .stepLimitReached
  halted_at_hlt : s.run = .halted → s.pc < memorySize ∧ s.mem.read s.pc = Mnemonic.ls8Opcode .hlt
  faulted_reported : ∀ f, s.run = .faulted f →
    ∃ before, s.out = before ++ [.diag f s.pc] ∧ ∀ e ∈ before, e.isDiag = false
  no_early_diag : (∀ f, s.run ≠ .faulted f) → ∀ e ∈ s.out, e.isDiag = false

end Sys2Proof.Machine

/-! ## What belongs to an instruction -/

namespace Sys2Proof

open Sys2Proof.Machine

/-- The registers an instruction may write (R27, R100, R131 to R134, R150): its destination operand; FL for CMP; SP for
the stack instructions. -/
def Instr.writes : Instr → List Byte
  | .add a _ | .sub a _ | .mul a _ | .div a _ | .mod a _ | .and a _ | .or a _ | .xor a _ | .shl a _ | .shr a _
  | .inc a | .dec a | .not a | .ldi a _ => [a]
  | .cmp _ _ => [regFL]
  | .pop a => [a, regSP]
  | .push _ | .call _ | .ret => [regSP]
  | .jmp _ | .jeq _ | .jne _ | .jgt _ | .jlt _ | .jle _ | .jge _ | .prn _ | .pra _ | .hlt | .int _ | .iret => []

/-- The registers an instruction may read, by operand or by its own rule. -/
def Instr.reads : Instr → List Byte
  | .add a b | .sub a b | .mul a b | .div a b | .mod a b | .and a b | .or a b | .xor a b | .shl a b | .shr a b
  | .cmp a b => [a, b]
  | .inc a | .dec a | .not a | .jmp a | .prn a => [a]
  | .push a | .call a => [a, regSP]
  | .pop _ | .ret => [regSP]
  | .jeq a | .jne a | .jgt a | .jlt a | .jle a | .jge a => [regFL, a]
  | .ldi _ _ | .pra _ | .hlt | .int _ | .iret => []

/-- The fault codes an instruction's own rule can raise (R173), after the fetch checks that any instruction has. -/
def Instr.faultCodes : Instr → List Nat
  | .add _ _ | .sub _ _ | .mul _ _ | .and _ _ | .or _ _ | .xor _ _ | .shl _ _ | .shr _ _ | .cmp _ _
  | .inc _ | .dec _ | .not _ | .push _ | .jmp _ | .prn _
  | .jeq _ | .jne _ | .jgt _ | .jlt _ | .jle _ | .jge _ => [3, 6]
  | .div _ _ | .mod _ _ => [3, 6, 2]
  | .pop _ | .ldi _ _ => [3]
  | .call _ => [5, 3, 6]
  | .ret | .pra _ | .hlt | .int _ | .iret => []

/-- The event an instruction that completes in state `s` emits, if any (R36): PRN, and the unimplemented
instructions. -/
def Instr.event (i : Instr) (s : State) : Option Event :=
  match i with
  | .prn a => match readReg s a with
    | .ok v => some (.prn v)
    | .error _ => none
  | .pra _ => some (.unimplemented .pra s.pc)
  | .int _ => some (.unimplemented .int s.pc)
  | .iret => some (.unimplemented .iret s.pc)
  | .add _ _ | .sub _ _ | .mul _ _ | .div _ _ | .mod _ _ | .inc _ | .dec _ | .cmp _ _ | .and _ _ | .not _
  | .or _ _ | .xor _ _ | .shl _ _ | .shr _ _ | .push _ | .pop _ | .call _ | .ret | .jmp _ | .jeq _ | .jne _
  | .jgt _ | .jlt _ | .jle _ | .jge _ | .ldi _ _ | .hlt => none

end Sys2Proof
end

