-- ==== Sys2Proof/Certificates/Slice0/Obligations.lean ====
section
/-! DEFINITION. The statements for the provers. What a register operand holds, or the fault of reading it, is said of
the register file itself (`State.Holds`, `State.ReadFault` in Safety.lean); `State.setReg` writes a register (pinned by
`Obligations.RegisterFileAccess`); memory is read one byte at a time through `Memory.read` (pinned by
`Obligations.MemoryReadAfterWrite`); and a fault is `takeFault` (pinned by `Obligations.FaultIsPrecise`). The opcode
bytes are those of the default `OPCODE_MAP` of R67, whose bits 3:0 the spec takes from general knowledge
(notes/assumptions/1.md). Where a rule records a decision of the spec's own (92_eei_decisions.md D<n>) or an inference
it marks as its own, the docstring names it. -/

namespace Sys2Proof.Rules

open Sys2Proof.Machine

/-! ## The shapes several instructions share -/

/-- The rule of a two-operand ALU operation that cannot raise on its values (the template of R101): its bytes and
length; its effect when both operands are written registers, with everything else unchanged; the first fault in the
order x[a], then x[b]. -/
def TwoOperand (mk : Byte → Byte → Instr) (opcode : Byte) (f : Byte → Byte → Byte) : Prop :=
  ∀ (a b : Byte) (s : State),
    encode (mk a b) = [opcode, a, b] ∧ (mk a b).length = 3 ∧
    (∀ va vb, s.Holds a va → s.Holds b vb →
      exec (mk a b) s = .next { s.setReg a (f va vb) with pc := s.pc + 3 }) ∧
    (∀ e, s.ReadFault a e → exec (mk a b) s = .next (takeFault s e)) ∧
    (∀ va e, s.Holds a va → s.ReadFault b e → exec (mk a b) s = .next (takeFault s e))

/-- The rule of DIV and MOD (R104, R105): as `TwoOperand` for a divisor that is not zero, and `DivideByZero` for a zero
divisor, after the checks of both operands. -/
def Division (mk : Byte → Byte → Instr) (opcode : Byte) (f : Nat → Nat → Nat) : Prop :=
  ∀ (a b : Byte) (s : State),
    encode (mk a b) = [opcode, a, b] ∧ (mk a b).length = 3 ∧
    (∀ va vb, s.Holds a va → s.Holds b vb → vb ≠ 0#8 →
      exec (mk a b) s = .next { s.setReg a (BitVec.ofNat 8 (f va.toNat vb.toNat)) with pc := s.pc + 3 } ∧
      f va.toNat vb.toNat < 256) ∧
    (∀ va, s.Holds a va → s.Holds b 0#8 → exec (mk a b) s = .next (takeFault s .divideByZero)) ∧
    (∀ e, s.ReadFault a e → exec (mk a b) s = .next (takeFault s e)) ∧
    (∀ va e, s.Holds a va → s.ReadFault b e → exec (mk a b) s = .next (takeFault s e))

/-- The rule of a one-operand ALU operation (the template of R106): no operand B, length 2. -/
def OneOperand (mk : Byte → Instr) (opcode : Byte) (f : Byte → Byte) : Prop :=
  ∀ (a : Byte) (s : State),
    encode (mk a) = [opcode, a] ∧ (mk a).length = 2 ∧
    (∀ va, s.Holds a va → exec (mk a) s = .next { s.setReg a (f va) with pc := s.pc + 2 }) ∧
    (∀ e, s.ReadFault a e → exec (mk a) s = .next (takeFault s e))

/-- The rule of a conditional jump (R136) with condition `cond E G L` on bits 0, 1 and 2 of FL: FL is read first and
always, and no other bit of it matters; operand A is read only when the condition holds. -/
def ConditionalJump (mk : Byte → Instr) (opcode : Byte) (cond : Bool → Bool → Bool → Bool) : Prop :=
  ∀ (a : Byte) (s : State),
    encode (mk a) = [opcode, a] ∧ (mk a).length = 2 ∧
    (s.regs[4] = none → exec (mk a) s = .next (takeFault s (.uninitialisedRegister 4#8))) ∧
    (∀ fl, s.regs[4] = some fl → cond (fl.getLsbD 0) (fl.getLsbD 1) (fl.getLsbD 2) = false →
      exec (mk a) s = .next { s with pc := s.pc + 2 }) ∧
    (∀ fl target, s.regs[4] = some fl → cond (fl.getLsbD 0) (fl.getLsbD 1) (fl.getLsbD 2) = true →
      s.Holds a target → exec (mk a) s = .next { s with pc := target.toNat }) ∧
    (∀ fl e, s.regs[4] = some fl → cond (fl.getLsbD 0) (fl.getLsbD 1) (fl.getLsbD 2) = true →
      s.ReadFault a e → exec (mk a) s = .next (takeFault s e))

/-- The rule of a recognised but unimplemented instruction (R152, R154, R155, R178): the event at the instruction's
address, pc past the instruction, and nothing else, whatever the operand byte. -/
def Unimplemented (i : Instr) (bytes : List Byte) (m : Stub) : Prop :=
  ∀ s : State, encode i = bytes ∧ i.length = bytes.length ∧
    exec i s = .next { s with pc := s.pc + bytes.length, out := s.out ++ [.unimplemented m s.pc] }

/-- The state with register r holding x, which may be "unwritten". -/
def withRegister (s : State) (r : Fin 8) (x : Option Byte) : State := { s with regs := s.regs.set r x }

/-- The outcome with register r of its next state holding x. -/
def outcomeWithRegister (o : Host.Outcome State Fault Refusal) (r : Fin 8) (x : Option Byte) :
    Host.Outcome State Fault Refusal :=
  match o with
  | .next t => .next (withRegister t r x)
  | .fault f => .fault f
  | .refused q => .refused q

/-- The 8 characters of a byte's binary line, bit 7 first (R73). -/
def binaryDigits (v : Byte) : List Char :=
  [7, 6, 5, 4, 3, 2, 1, 0].map fun k => if v.getLsbD k then '1' else '0'

end Sys2Proof.Rules

open Sys2Proof Sys2Proof.Machine Sys2Proof.Rules

/-! ## Reset, registers and memory -/

/-- R38, R190 (with D12 and D25): the reset state with a program image of N bytes, and no start with more than 256
bytes; `State.reset` is the case N = 0. -/
def Obligations.ResetWithImage : Prop :=
  State.boot [] = some State.reset ∧
  ∀ image : List Byte,
    (256 < image.length → State.boot image = none) ∧
    (image.length ≤ 256 → ∃ s, State.boot image = some s ∧
      (∀ r : Fin 8, s.regs[r] = if r.val = 7 then some 255#8 else none) ∧
      s.pc = 0 ∧ s.run = .running ∧ s.steps = 0 ∧ s.out = [] ∧
      (∀ a, (h : a < image.length) → s.mem.read a = image[a]) ∧
      (∀ a, image.length ≤ a → s.mem.read a = 0#8))

/-- R22, R24 (with D11 and D12): what a register operand does, for each of its 256 values. -/
def Obligations.RegisterFileAccess : Prop :=
  ∀ (s : State) (i v : Byte),
    (8 ≤ i.toNat → readReg s i = .error (.registerIndex i) ∧ writeReg s i v = .error (.registerIndex i)) ∧
    (∀ r : Fin 8, i.toNat = r.val →
      (s.regs[r] = none → readReg s i = .error (.uninitialisedRegister i)) ∧
      (∀ w, s.regs[r] = some w → readReg s i = .ok w) ∧
      writeReg s i v = .ok { s with regs := s.regs.set r (some v) } ∧
      s.setReg i v = { s with regs := s.regs.set r (some v) })

/-- R23: a register reads back what was written to it, and every other register reads as before. -/
def Obligations.RegisterReadsBack : Prop :=
  ∀ (s t : State) (i v : Byte), writeReg s i v = .ok t →
    t.Holds i v ∧ (∀ r : Fin 8, r.val ≠ i.toNat → t.regs[r] = s.regs[r]) ∧
    t.pc = s.pc ∧ t.mem = s.mem ∧ t.run = s.run ∧ t.steps = s.steps ∧ t.out = s.out

/-- R22: no step, under any parameters, makes a written register unwritten. -/
def Obligations.WrittenStaysWritten : Prop :=
  ∀ (cfg : Config) (s t : State), stepWith cfg s = .next t →
    ∀ r : Fin 8, s.regs[r] ≠ none → t.regs[r] ≠ none

/-- R41, R42, R49: a read returns the byte last written there, a write leaves every other address alone, and the memory
keeps its canonical form. -/
def Obligations.MemoryReadAfterWrite : Prop :=
  ∀ (m : Memory) (a : Nat) (v : Byte), m.wf = true → a < 256 →
    (m.write a v).wf = true ∧ ∀ b, (m.write a v).read b = if b = a then v else m.read b

/-- The canonical form makes equal memories equal data: two canonical memories that read alike are the same list. -/
def Obligations.CanonicalMemoryIsUnique : Prop :=
  ∀ m n : Memory, m.wf = true → n.wf = true → (∀ a, m.read a = n.read a) → m = n

/-- R52: a byte that PUSH stores is what a fetch at that address then reads. -/
def Obligations.FetchSeesPushedByte : Prop :=
  ∀ (s : State) (a v sp : Byte), s.mem.wf = true → s.Holds 7#8 sp → s.Holds a v → a ≠ 7#8 →
    ∃ t, exec (.push a) s = .next t ∧ (fetchWindow { t with pc := (sp - 1#8).toNat }).head? = some v

/-! ## The ALU -/

/-- R101, R102, R103 (with D3): ADD, SUB and MUL are the exact sum, difference and product mod 256. -/
def Obligations.ArithmeticResults : Prop :=
  TwoOperand .add 0xA0#8 (fun x y => BitVec.ofNat 8 (x.toNat + y.toNat)) ∧
  TwoOperand .sub 0xA1#8 (fun x y => BitVec.ofInt 8 ((x.toNat : Int) - (y.toNat : Int))) ∧
  TwoOperand .mul 0xA2#8 (fun x y => BitVec.ofNat 8 (x.toNat * y.toNat))

/-- R104, R105 (with D4 and D19): DIV and MOD are floor division and remainder, and fault on a zero divisor. -/
def Obligations.DivisionResults : Prop :=
  Division .div 0xA3#8 (fun x y => x / y) ∧ Division .mod 0xA4#8 (fun x y => x - y * (x / y))

/-- R106, R107, R111 (with D3 and D15): INC, DEC and NOT. -/
def Obligations.OneOperandResults : Prop :=
  OneOperand .inc 0x65#8 (fun x => BitVec.ofNat 8 (x.toNat + 1)) ∧
  OneOperand .dec 0x66#8 (fun x => BitVec.ofInt 8 ((x.toNat : Int) - 1)) ∧
  OneOperand .not 0x69#8 (fun x => BitVec.ofNat 8 (255 - x.toNat))

/-- R108, R109, R110: AND, OR and XOR, bit by bit. -/
def Obligations.LogicResults : Prop :=
  TwoOperand .and 0xA8#8 (fun x y => BitVec.ofNat 8 (x.toNat &&& y.toNat)) ∧
  TwoOperand .or 0xAA#8 (fun x y => BitVec.ofNat 8 (x.toNat ||| y.toNat)) ∧
  TwoOperand .xor 0xAB#8 (fun x y => BitVec.ofNat 8 (x.toNat ^^^ y.toNat))

/-- R112, R113 (with D16): SHL and SHR by the whole value of the count register, as multiplication and division by a
power of two. -/
def Obligations.ShiftResults : Prop :=
  TwoOperand .shl 0xAC#8 (fun x y => BitVec.ofNat 8 (x.toNat * 2 ^ y.toNat)) ∧
  TwoOperand .shr 0xAD#8 (fun x y => BitVec.ofNat 8 (x.toNat / 2 ^ y.toNat))

/-- R114 (with D4 and D5): CMP writes FL with 4 L + 2 G + E of the unsigned comparison, reads no old FL, and writes
neither operand. -/
def Obligations.CompareWritesFlags : Prop :=
  ∀ (a b : Byte) (s : State),
    encode (.cmp a b) = [0xA7#8, a, b] ∧ Instr.length (.cmp a b) = 3 ∧
    (∀ va vb, s.Holds a va → s.Holds b vb →
      exec (.cmp a b) s = .next { s.setReg 4#8
        (if va.toNat < vb.toNat then 4#8 else if vb.toNat < va.toNat then 2#8 else 1#8) with pc := s.pc + 3 }) ∧
    (∀ e, s.ReadFault a e → exec (.cmp a b) s = .next (takeFault s e)) ∧
    (∀ va e, s.Holds a va → s.ReadFault b e → exec (.cmp a b) s = .next (takeFault s e))

/-- A law of R115, which the spec marks as derived from R104 and R105: DIV and MOD of the same operands give quotient
and remainder of one division. -/
def Obligations.DivisionIdentity : Prop :=
  ∀ (a b va vb : Byte) (s : State), s.Holds a va → s.Holds b vb → vb ≠ 0#8 →
    ∃ t u q r, exec (.div a b) s = .next t ∧ exec (.mod a b) s = .next u ∧
      t.Holds a q ∧ u.Holds a r ∧
      va.toNat = vb.toNat * q.toNat + r.toNat ∧ r.toNat < vb.toNat

/-! ## Stack and control transfer -/

/-- R131 (with D10 and D18): PUSH, the form PUSH R7 included (it stores the decremented SP). -/
def Obligations.PushStoresBelowTheTop : Prop :=
  ∀ (a sp : Byte) (s : State), s.Holds 7#8 sp →
    encode (.push a) = [0x45#8, a] ∧ Instr.length (.push a) = 2 ∧
    (∀ va, s.Holds a va →
      exec (.push a) s = .next { s.setReg 7#8 (sp - 1#8) with
        mem := s.mem.write (sp - 1#8).toNat (if a = 7#8 then sp - 1#8 else va), pc := s.pc + 2 }) ∧
    (∀ e, s.ReadFault a e → exec (.push a) s = .next (takeFault s e))

/-- R132 (with D10 and D18): POP, the form POP R7 included (the popped byte is then incremented). -/
def Obligations.PopReadsTheTop : Prop :=
  ∀ (a sp : Byte) (s : State), s.Holds 7#8 sp →
    encode (.pop a) = [0x46#8, a] ∧ Instr.length (.pop a) = 2 ∧
    (a.toNat < 7 → exec (.pop a) s =
      .next { (s.setReg a (s.mem.read sp.toNat)).setReg 7#8 (sp + 1#8) with pc := s.pc + 2 }) ∧
    (a.toNat = 7 → exec (.pop a) s =
      .next { s.setReg 7#8 (s.mem.read sp.toNat + 1#8) with pc := s.pc + 2 }) ∧
    (8 ≤ a.toNat → exec (.pop a) s = .next (takeFault s (.registerIndex a)))

/-- R133 (with D9, D10 and D18): CALL, the form CALL R7 included (it jumps to the decremented SP), and its faults in
their order. -/
def Obligations.CallPushesReturnAddress : Prop :=
  ∀ (a sp : Byte) (s : State), s.Holds 7#8 sp →
    encode (.call a) = [0x50#8, a] ∧ Instr.length (.call a) = 2 ∧
    (254 ≤ s.pc → exec (.call a) s = .next (takeFault s (.returnAddressOutOfRange (s.pc + 2)))) ∧
    (∀ va, s.pc < 254 → s.Holds a va →
      exec (.call a) s = .next { s.setReg 7#8 (sp - 1#8) with
        mem := s.mem.write (sp - 1#8).toNat (BitVec.ofNat 8 (s.pc + 2))
        pc := if a = 7#8 then (sp - 1#8).toNat else va.toNat }) ∧
    (∀ e, s.pc < 254 → s.ReadFault a e → exec (.call a) s = .next (takeFault s e))

/-- R134 (with D10): RET pops the pc. -/
def Obligations.ReturnPopsThePc : Prop :=
  ∀ (sp : Byte) (s : State), s.Holds 7#8 sp →
    encode .ret = [0x11#8] ∧ Instr.length .ret = 1 ∧
    exec .ret s = .next { s.setReg 7#8 (sp + 1#8) with pc := (s.mem.read sp.toNat).toNat }

/-- R135: JMP. -/
def Obligations.JumpGoesToTheRegister : Prop :=
  ∀ (a : Byte) (s : State),
    encode (.jmp a) = [0x54#8, a] ∧ Instr.length (.jmp a) = 2 ∧
    (∀ target, s.Holds a target → exec (.jmp a) s = .next { s with pc := target.toNat }) ∧
    (∀ e, s.ReadFault a e → exec (.jmp a) s = .next (takeFault s e))

/-- R136 to R142 (with D5 and D6): the six conditional jumps, each with its condition. -/
def Obligations.ConditionalJumps : Prop :=
  ConditionalJump .jeq 0x55#8 (fun E _ _ => E) ∧
  ConditionalJump .jne 0x56#8 (fun E _ _ => !E) ∧
  ConditionalJump .jgt 0x57#8 (fun _ G _ => G) ∧
  ConditionalJump .jge 0x5A#8 (fun E G _ => G || E) ∧
  ConditionalJump .jlt 0x58#8 (fun _ _ L => L) ∧
  ConditionalJump .jle 0x59#8 (fun E _ L => L || E)

/-- R114 with R137 to R142: after CMP of two registers, each conditional jump goes to its target exactly when the
unsigned comparison it is named for holds of the compared values, and else past itself. -/
def Obligations.CompareThenJump : Prop :=
  ∀ (a b va vb : Byte) (s t : State), s.Holds a va → s.Holds b vb → exec (.cmp a b) s = .next t →
    ∀ (c target : Byte), t.Holds c target →
      exec (.jeq c) t = .next { t with pc := if va.toNat = vb.toNat then target.toNat else t.pc + 2 } ∧
      exec (.jne c) t = .next { t with pc := if va.toNat ≠ vb.toNat then target.toNat else t.pc + 2 } ∧
      exec (.jgt c) t = .next { t with pc := if va.toNat > vb.toNat then target.toNat else t.pc + 2 } ∧
      exec (.jge c) t = .next { t with pc := if va.toNat ≥ vb.toNat then target.toNat else t.pc + 2 } ∧
      exec (.jlt c) t = .next { t with pc := if va.toNat < vb.toNat then target.toNat else t.pc + 2 } ∧
      exec (.jle c) t = .next { t with pc := if va.toNat ≤ vb.toNat then target.toNat else t.pc + 2 }

/-- R143, first law, which the spec marks as derived from R131 and R132: PUSH then POP of the same register, R7
included, restores every register; one cell, below the old SP, now holds the pushed byte. -/
def Obligations.PushThenPopRestores : Prop :=
  ∀ (a sp v : Byte) (s : State), s.mem.wf = true → s.Holds 7#8 sp → s.Holds a v →
    ∃ t u, exec (.push a) s = .next t ∧ exec (.pop a) t = .next u ∧
      u.regs = s.regs ∧ u.pc = s.pc + 4 ∧ u.run = s.run ∧ u.steps = s.steps ∧ u.out = s.out ∧
      ∀ x, u.mem.read x = if x = (sp - 1#8).toNat then (if a = 7#8 then sp - 1#8 else v) else s.mem.read x

/-- R143, second law, which the spec marks as derived from R133 and R134: from any later state in which SP and the byte
it addresses are as CALL left them, RET goes to the instruction after the CALL, restores SP, and changes nothing else.
-/
def Obligations.CallThenReturn : Prop :=
  ∀ (a sp v : Byte) (s : State), s.mem.wf = true → s.pc < 254 → s.Holds 7#8 sp → s.Holds a v →
    ∃ t, exec (.call a) s = .next t ∧
      ∀ u : State, u.regs[7] = t.regs[7] →
        u.mem.read (sp - 1#8).toNat = t.mem.read (sp - 1#8).toNat →
        exec .ret u = .next { u.setReg 7#8 sp with pc := s.pc + 2 }

/-! ## Load-immediate, output and system -/

/-- R150: LDI. The spec derives the rule from its source's scenarios (L1-1); the opcode is general knowledge. -/
def Obligations.LoadImmediate : Prop :=
  ∀ (a imm : Byte) (s : State),
    encode (.ldi a imm) = [0x82#8, a, imm] ∧ Instr.length (.ldi a imm) = 3 ∧
    (a.toNat < 8 → exec (.ldi a imm) s = .next { s.setReg a imm with pc := s.pc + 3 }) ∧
    (8 ≤ a.toNat → exec (.ldi a imm) s = .next (takeFault s (.registerIndex a)))

/-- R151: PRN emits the register's byte and changes nothing but the pc. -/
def Obligations.PrintEmitsTheRegister : Prop :=
  ∀ (a : Byte) (s : State),
    encode (.prn a) = [0x47#8, a] ∧ Instr.length (.prn a) = 2 ∧
    (∀ v, s.Holds a v → exec (.prn a) s = .next { s with pc := s.pc + 2, out := s.out ++ [.prn v] }) ∧
    (∀ e, s.ReadFault a e → exec (.prn a) s = .next (takeFault s e))

/-- R152, R154, R155, R178 (with D14): PRA, INT and IRET, for every operand byte and in every state. -/
def Obligations.UnimplementedInstructions : Prop :=
  (∀ a, Unimplemented (.pra a) [0x48#8, a] .pra) ∧
  (∀ a, Unimplemented (.int a) [0x52#8, a] .int) ∧
  Unimplemented .iret [0x13#8] .iret

/-- R153: HLT changes the run state and nothing else. -/
def Obligations.HaltStops : Prop :=
  ∀ s : State, encode .hlt = [0x01#8] ∧ Instr.length .hlt = 1 ∧ exec .hlt s = .next { s with run := .halted } ∧
    ∀ t, exec .hlt s = .next t → ∀ cfg, stepWith cfg t = .fault (.notRunning .halted)

/-! ## Frames over all instructions -/

/-- R27, R30, R100, R130: executing an instruction, whether it completes or faults, changes no register but those of
`Instr.writes`: the destination operand of an ALU operation (but CMP), LDI and POP; FL for CMP; SP for PUSH, POP, CALL
and RET; none for the others. -/
def Obligations.RegisterFrame : Prop :=
  ∀ (i : Instr) (s t : State), exec i s = .next t →
    ∀ r : Fin 8, (∀ w ∈ i.writes, w.toNat ≠ r.val) → t.regs[r] = s.regs[r]

/-- R42, R43, which the spec marks as derived: only PUSH and CALL store, and only at the address one below SP (mod
256); every other byte of memory reads as before, and for every other instruction all of memory does. -/
def Obligations.MemoryFrame : Prop :=
  ∀ (i : Instr) (s t : State), exec i s = .next t →
    ((∀ a, i ≠ .push a) → (∀ a, i ≠ .call a) → ∀ x, t.mem.read x = s.mem.read x) ∧
    (∀ sp, s.Holds 7#8 sp → ∀ x, x ≠ (sp - 1#8).toNat → t.mem.read x = s.mem.read x)

/-- R12, R35, R36, R86, R153: what an instruction does to the pc, the run state, the step counter and the output. It
either takes a fault, or completes: the step counter is unchanged; the event of PRN, PRA, INT or IRET is appended and
no other; the run state changes only for HLT; the pc moves by the length, but for HLT, which leaves it, and for the
nine sets-PC instructions, which leave it at a byte address or past themselves. -/
def Obligations.ControlFrame : Prop :=
  ∀ (i : Instr) (s t : State), exec i s = .next t →
    (∃ f, t = takeFault s f) ∨
    (t.steps = s.steps ∧ t.out = s.out ++ (i.event s).toList ∧
      t.run = (if i = .hlt then .halted else s.run) ∧
      (i.mnemonic.setsPc = false → t.pc = if i = .hlt then s.pc else s.pc + i.length) ∧
      (i.mnemonic.setsPc = true → t.pc ≤ 255 ∨ t.pc = s.pc + i.length))

/-- R28, R30, R177: a register that an instruction neither reads nor writes, by operand or by its own rule, has no
effect on it, whatever it holds and even unwritten: executing with another value there gives the same outcome with that
value there. IM and IS are such for every instruction that does not name R5 or R6. -/
def Obligations.UnnamedRegistersDoNotMatter : Prop :=
  ∀ (i : Instr) (r : Fin 8), (∀ w ∈ i.reads ++ i.writes, w.toNat ≠ r.val) →
    ∀ (s : State) (x : Option Byte),
      exec i (withRegister s r x) = outcomeWithRegister (exec i s) r x

/-- R31, R34, R180, R181: no instruction reads the run state, the step counter or the output. From a state s with any
run state, step counter and output, an instruction does the same: the same registers, pc and memory, the same events
appended to the output, the same change of the run state (the same fault among them) or none, and the step counter
kept. What it does is chosen from i and s before the three are. -/
def Obligations.RunStateIsNotRead : Prop :=
  ∀ (i : Instr) (s : State), ∃ (t : State) (events : List Event) (change : Option RunState),
    ∀ (run : RunState) (steps : Nat) (out : List Event),
      exec i { s with run := run, steps := steps, out := out } =
        .next { t with run := change.getD run, steps := steps, out := out ++ events }

/-- R173, which the spec marks as derived from the instruction rules: the faults an instruction's own rule can raise
are those of its row of the table. -/
def Obligations.FaultsOfEachInstruction : Prop :=
  ∀ (i : Instr) (s t : State) (f : CoreFault), s.Written 7#8 → s.run = .running →
    exec i s = .next t → t.run = .faulted f → f.code ∈ i.faultCodes

/-! ## The cycle -/

/-- R80 with R82 to R86: when the bytes of an instruction stand at the pc, below address 256, a step of the running
core counts the step and executes that instruction; the pc update is the instruction's own (`ControlFrame`). -/
def Obligations.StepRunsTheInstructionAtPc : Prop :=
  ∀ (i : Instr) (s : State), s.run = .running → s.pc + i.length ≤ 256 →
    (∀ k, (h : k < (encode i).length) → s.mem.read (s.pc + k) = (encode i)[k]) →
    step s = exec i { s with steps := s.steps + 1 }

/-- R82, R83, R84 (with D7 and D8), under the default opcode map: the fetch, the decode and the operand fetch of a
running core, in their order, with their faults. -/
def Obligations.FetchDecodeOperandFetch : Prop :=
  ∀ s : State, s.run = .running →
    (255 < s.pc → step s = .next (takeFault { s with steps := s.steps + 1 } (.fetchOutOfRange s.pc))) ∧
    (s.pc ≤ 255 → (∀ m : Mnemonic, m.ls8Opcode ≠ s.mem.read s.pc) →
      step s = .next (takeFault { s with steps := s.steps + 1 } (.illegalOpcode (s.mem.read s.pc)))) ∧
    (∀ m : Mnemonic, s.pc ≤ 255 → m.ls8Opcode = s.mem.read s.pc →
      (255 < s.pc + opcodeOperandCount (s.mem.read s.pc) →
        step s = .next (takeFault { s with steps := s.steps + 1 } (.fetchOutOfRange 256))) ∧
      (s.pc + opcodeOperandCount (s.mem.read s.pc) ≤ 255 →
        step s = exec (m.build (s.mem.read (s.pc + 1)) (s.mem.read (s.pc + 2)))
          { s with steps := s.steps + 1 }))

/-- R80, R176, R184: under any parameters a step gives a next state exactly when the core is running, so a running core
is never stuck; no other run state has a step. -/
def Obligations.StepsExactlyWhileRunning : Prop :=
  ∀ (cfg : Config) (s : State),
    (s.run = .running → ∃ t, stepWith cfg s = .next t) ∧
    (s.run ≠ .running → stepWith cfg s = .fault (.notRunning s.run))

/-- R81 (with D13): the step limit. Reached, it stops the core and does nothing else; not reached, or not set, the step
is that of the same core without it; and without it no step ends in `StepLimitReached`. -/
def Obligations.StepLimit : Prop :=
  ∀ (cfg : Config) (s : State), s.run = .running →
    (∀ n, cfg.stepLimit = some n → n ≤ s.steps → stepWith cfg s = .next { s with run := .stepLimitReached }) ∧
    (∀ n, cfg.stepLimit = some n → s.steps < n → stepWith cfg s = stepWith { cfg with stepLimit := none } s) ∧
    (cfg.stepLimit = none → ∀ t, stepWith cfg s = .next t → t.run ≠ .stepLimitReached)

/-- R172, R175 (with D19): a step that ends in `Faulted(f)` has no effect but to enter that state, report it at the pc
of the instruction, and count the step. -/
def Obligations.FaultIsPrecise : Prop :=
  ∀ (cfg : Config) (s t : State) (f : CoreFault), stepWith cfg s = .next t → t.run = .faulted f →
    t = { s with run := .faulted f, steps := s.steps + 1, out := s.out ++ [.diag f s.pc] }

/-- R34, R153: the core enters `Halted` exactly by executing an HLT byte, and that step changes nothing but the run
state and the step counter. -/
def Obligations.HaltedOnlyByHalt : Prop :=
  ∀ s t : State, step s = .next t →
    (t.run = .halted ↔ s.pc ≤ 255 ∧ s.mem.read s.pc = 0x01#8) ∧
    (t.run = .halted → t = { s with run := .halted, steps := s.steps + 1 })

/-- R35, R36: a step that is not stopped by the step limit counts one, and any step only appends to the output, at most
one event. -/
def Obligations.StepsAndOutputOnlyGrow : Prop :=
  ∀ (cfg : Config) (s t : State), stepWith cfg s = .next t →
    (t.run ≠ .stepLimitReached → t.steps = s.steps + 1) ∧
    (t.run = .stepLimitReached → t.steps = s.steps) ∧
    ∃ es, t.out = s.out ++ es ∧ es.length ≤ 1

/-- The host's instruction word: a state with the word stored where the next instruction is fetched runs, in one step,
the instruction the decoder reads from the word (the model's own interface, notes/assumptions/12.md). -/
def Obligations.StoredWordRunsNext : Prop :=
  ∀ (s : State) (nbits w : Nat) (i : Instr), s.mem.wf = true → s.pc ≤ 253 → decodeTableWord nbits w = some i →
    step (s.withFetchWord nbits w) =
      exec i { s.withFetchWord nbits w with steps := s.steps + 1 }

/-! ## The invariant -/

/-- The invariant holds at reset. -/
def Obligations.ResetMeetsInvariant : Prop := State.reset.Inv

/-- The invariant holds at reset with any program image the host may load. -/
def Obligations.BootMeetsInvariant : Prop :=
  ∀ (image : List Byte) (s : State), State.boot image = some s → s.Inv

/-- The invariant is kept by every step, from every state that meets it. Its bound pc ≤ 256 is the model's inference
(notes/assumptions/5.md). -/
def Obligations.StepKeepsInvariant : Prop :=
  ∀ s t : State, s.Inv → step s = .next t → t.Inv

/-- R87: a state of a run under the default parameters from which no step goes on is `Halted`, with the pc at an HLT
byte, or `Faulted(f)`, with `Diag(f, pc)` the last event and the only report of a fault. -/
def Obligations.RunsEndHaltedOrFaulted : Prop :=
  ∀ (image : List Byte) (s : State), Reachable ls8Config image s → (∀ t, step s ≠ .next t) →
    (s.run = .halted ∧ s.pc ≤ 255 ∧ s.mem.read s.pc = 0x01#8 ∧ ∀ f addr, .diag f addr ∉ s.out) ∨
    (∃ f before, s.run = .faulted f ∧ s.out = before ++ [.diag f s.pc] ∧ ∀ g addr, .diag g addr ∉ before)

/-! ## Encoding -/

/-- R60, R65: under every well-formed opcode map (notes/assumptions/2.md), the bytes of a well-formed instruction,
followed by anything, decode to that instruction, with every operand at every value, and leave what follows. -/
def Obligations.DecodeOfEncode : Prop :=
  ∀ (m : OpcodeMap) (i : Instr) (rest : List Byte), m.wellFormed = true → i.wellFormed m = true →
    ∃ bytes, encodeWith m i = some bytes ∧ bytes.length = i.length ∧ decodeWith m (bytes ++ rest) = .ok (i, rest)

/-- R60, R65, R67: every instruction is well formed under the default map, its bytes are `encode`'s, and any byte list
that decodes to it begins with exactly those bytes. -/
def Obligations.EncodeOfDecode : Prop :=
  ∀ i : Instr, i.wellFormed ls8Default = true ∧ encodeWith ls8Default i = some (encode i) ∧
    ∀ bytes rest, decode bytes = .ok (i, rest) ↔ bytes = encode i ++ rest

/-- R62, which the spec marks as derived from R61, and R71: an instruction's length is 1 plus bits 7:6 of its first
byte, and a byte with 3 there is illegal. This is stated under every opcode map: for a map with a row that contradicts
bits 7:6 of its own byte, a row at 0xC0 for one, it rests on the model's DESIGN CHOICE that such a row counts as absent
(notes/assumptions/2.md). -/
def Obligations.LengthFromFirstByte : Prop :=
  ∀ (m : OpcodeMap) (op : Byte) (rest : List Byte),
    (∀ i rest', decodeWith m (op :: rest) = .ok (i, rest') →
      i.length = 1 + op.toNat / 64 ∧ (op :: rest).length = i.length + rest'.length) ∧
    (op.toNat / 64 = 3 → decodeWith m (op :: rest) = .error (.illegalOpcode op))

/-- R69: of the 256 opcode bytes 225 have no row in the default map, 0x00, 0x83 and 0x84 among them. -/
def Obligations.IllegalOpcodeBytes : Prop :=
  ((List.range 256).filter fun n => (ls8Default.lookup (BitVec.ofNat 8 n)).isNone).length = 225 ∧
  decode [0x00#8] = .error (.illegalOpcode 0x00#8) ∧
  decode [0x83#8, 0#8, 0#8] = .error (.illegalOpcode 0x83#8) ∧
  decode [0x84#8, 0#8, 0#8] = .error (.illegalOpcode 0x84#8)

/-- R68: the default opcode map has one row for each of the 31 instructions and every row has the layout of R61. -/
def Obligations.DefaultMapLayout : Prop :=
  ls8Default.length = 31 ∧ ls8Default.wellFormed = true ∧ ∀ m : Mnemonic, ls8Default.lookup m.ls8Opcode = some m

/-- R67, R72, 95_test_vectors.md: words written out from the spec decode to the instructions they stand for, one at
least for each family. -/
def Obligations.WordsOfTheSpecDecode : Prop :=
  decode [0b10100000#8, 0#8, 1#8] = .ok (.add 0#8 1#8, []) ∧
  decode [0b01100101#8, 2#8] = .ok (.inc 2#8, []) ∧
  decode [0b10100111#8, 2#8, 3#8] = .ok (.cmp 2#8 3#8, []) ∧
  decode [0b01000101#8, 0#8] = .ok (.push 0#8, []) ∧
  decode [0b01010000#8, 1#8] = .ok (.call 1#8, []) ∧
  decode [0b00010001#8] = .ok (.ret, []) ∧
  decode [0b01010101#8, 0#8] = .ok (.jeq 0#8, []) ∧
  decode [0b10000010#8, 0#8, 8#8] = .ok (.ldi 0#8 8#8, []) ∧
  decode [0b01000111#8, 0#8] = .ok (.prn 0#8, []) ∧
  decode [0b00000001#8] = .ok (.hlt, []) ∧
  decode [0b00010011#8] = .ok (.iret, [])

/-! ## Text forms -/

/-- R73: a byte's 8-digit binary line, most significant digit first, is read as that byte, alone, with a comment
straight after its digits, or with white space at its end; a comment line and a blank line are skipped. Which
characters beside the space and the newline are white space (`isBlankChar`), and that blanks may stand before a
comment, in the two clauses so marked, is the model's DESIGN CHOICE (notes/assumptions/11.md). -/
def Obligations.BinaryLineIsRead : Prop :=
  isBlankChar ' ' = true ∧ isBlankChar '\n' = true ∧
  ∀ (v : Byte) (comment blanks : List Char), (∀ c ∈ blanks, isBlankChar c = true) →
    parseLine (binaryDigits v) = .byte v ∧
    parseLine (binaryDigits v ++ '#' :: comment) = .byte v ∧
    parseLine (binaryDigits v ++ blanks) = .byte v ∧
    parseLine ('#' :: comment) = .skipped ∧
    parseLine blanks = .skipped ∧
    -- DESIGN CHOICE (notes/assumptions/11.md): blanks before a comment
    parseLine (binaryDigits v ++ blanks ++ '#' :: comment) = .byte v ∧
    parseLine (blanks ++ '#' :: comment) = .skipped

/-- R73, R190: an image written as one binary line a byte is read as those bytes in order. -/
def Obligations.ImageTextRoundTrip : Prop :=
  ∀ image : List Byte, parseImage (image.map binaryDigits) = some image
end

