-- ==== Sys2Proof/Laws/State.lean ====
section
/-! SUPPORT. One lemma per field per update of the state, true by rfl. -/

namespace Sys2Proof.Machine

@[simp] theorem State.setReg_pc (s : State) (i v : Byte) : (s.setReg i v).pc = s.pc := rfl
@[simp] theorem State.setReg_mem (s : State) (i v : Byte) : (s.setReg i v).mem = s.mem := rfl
@[simp] theorem State.setReg_run (s : State) (i v : Byte) : (s.setReg i v).run = s.run := rfl
@[simp] theorem State.setReg_steps (s : State) (i v : Byte) : (s.setReg i v).steps = s.steps := rfl
@[simp] theorem State.setReg_out (s : State) (i v : Byte) : (s.setReg i v).out = s.out := rfl

@[simp] theorem emit_regs (s : State) (e : Event) : (emit s e).regs = s.regs := rfl
@[simp] theorem emit_pc (s : State) (e : Event) : (emit s e).pc = s.pc := rfl
@[simp] theorem emit_mem (s : State) (e : Event) : (emit s e).mem = s.mem := rfl
@[simp] theorem emit_run (s : State) (e : Event) : (emit s e).run = s.run := rfl
@[simp] theorem emit_steps (s : State) (e : Event) : (emit s e).steps = s.steps := rfl
@[simp] theorem emit_out (s : State) (e : Event) : (emit s e).out = s.out ++ [e] := rfl

@[simp] theorem takeFault_regs (s : State) (f : CoreFault) : (takeFault s f).regs = s.regs := rfl
@[simp] theorem takeFault_pc (s : State) (f : CoreFault) : (takeFault s f).pc = s.pc := rfl
@[simp] theorem takeFault_mem (s : State) (f : CoreFault) : (takeFault s f).mem = s.mem := rfl
@[simp] theorem takeFault_run (s : State) (f : CoreFault) : (takeFault s f).run = .faulted f := rfl
@[simp] theorem takeFault_steps (s : State) (f : CoreFault) : (takeFault s f).steps = s.steps := rfl
@[simp] theorem takeFault_out (s : State) (f : CoreFault) : (takeFault s f).out = s.out ++ [.diag f s.pc] := rfl

@[simp] theorem jumpTo_regs (s : State) (v : Byte) : (jumpTo s v).regs = s.regs := rfl
@[simp] theorem jumpTo_pc (s : State) (v : Byte) : (jumpTo s v).pc = v.toNat := rfl
@[simp] theorem jumpTo_mem (s : State) (v : Byte) : (jumpTo s v).mem = s.mem := rfl
@[simp] theorem jumpTo_run (s : State) (v : Byte) : (jumpTo s v).run = s.run := rfl
@[simp] theorem jumpTo_steps (s : State) (v : Byte) : (jumpTo s v).steps = s.steps := rfl
@[simp] theorem jumpTo_out (s : State) (v : Byte) : (jumpTo s v).out = s.out := rfl

@[simp] theorem beginStep_regs (s : State) : (beginStep s).regs = s.regs := rfl
@[simp] theorem beginStep_pc (s : State) : (beginStep s).pc = s.pc := rfl
@[simp] theorem beginStep_mem (s : State) : (beginStep s).mem = s.mem := rfl
@[simp] theorem beginStep_run (s : State) : (beginStep s).run = s.run := rfl
@[simp] theorem beginStep_steps (s : State) : (beginStep s).steps = s.steps + 1 := rfl
@[simp] theorem beginStep_out (s : State) : (beginStep s).out = s.out := rfl

@[simp] theorem placeAtPc_regs (s : State) (bs : List Byte) : (placeAtPc s bs).regs = s.regs := rfl
@[simp] theorem placeAtPc_pc (s : State) (bs : List Byte) : (placeAtPc s bs).pc = s.pc := rfl
@[simp] theorem placeAtPc_mem (s : State) (bs : List Byte) :
    (placeAtPc s bs).mem = Memory.place s.mem s.pc bs := rfl
@[simp] theorem placeAtPc_run (s : State) (bs : List Byte) : (placeAtPc s bs).run = .running := rfl
@[simp] theorem placeAtPc_steps (s : State) (bs : List Byte) : (placeAtPc s bs).steps = s.steps := rfl
@[simp] theorem placeAtPc_out (s : State) (bs : List Byte) : (placeAtPc s bs).out = s.out := rfl

end Sys2Proof.Machine
end

