-- ==== Sys2Proof/Laws/Decode.lean ====
section
/-! SUPPORT. What the decoder, the encoder and the fetch can do. -/

namespace Sys2Proof

/-- A mnemonic has at most two operands (R63). -/
theorem Mnemonic.operandCount_le (m : Mnemonic) : m.operandCount ≤ 2 := by
  cases m <;> decide

theorem Instr.length_eq (i : Instr) : i.length = 1 + i.operands.length := by
  cases i <;> rfl

theorem Instr.length_le (i : Instr) : i.length ≤ 3 :=
  Nat.add_le_add_left (Mnemonic.operandCount_le _) 1

theorem encode_length (i : Instr) : (encode i).length = i.length := by
  rw [Instr.length_eq, encode, List.length_cons, Nat.add_comm]

/-- Building an instruction from its own mnemonic and operands gives it back. -/
theorem Mnemonic.build_mnemonic (m : Mnemonic) (a b : Byte) : (m.build a b).mnemonic = m := by
  cases m <;> rfl

/-- Every outcome of a lookup (R65). -/
theorem OpcodeMap.lookup_eq_some {m : OpcodeMap} {op : Byte} {mn : Mnemonic} (h : m.lookup op = some mn) :
    ⟨op, mn⟩ ∈ m ∧ mn.operandCount = opcodeOperandCount op := by
  unfold OpcodeMap.lookup at h
  split at h
  · cases h
  · rename_i r hr
    split at h
    · rename_i hc
      cases h
      have hm := List.mem_of_find?_eq_some hr
      have he : r.opcode = op := by simpa using List.find?_some hr
      subst he
      exact ⟨hm, hc⟩
    · cases h

/-- A default row looked up gives its mnemonic. -/
theorem ls8_lookup (mn : Mnemonic) : ls8Default.lookup mn.ls8Opcode = some mn := by
  cases mn <;> decide

/-- What a default lookup that answers says of the byte. -/
theorem ls8_lookup_eq_some {op : Byte} {mn : Mnemonic} (h : ls8Default.lookup op = some mn) :
    op = mn.ls8Opcode := by
  have h := (OpcodeMap.lookup_eq_some h).1
  simp only [ls8Default, List.mem_map] at h
  obtain ⟨m, -, hm⟩ := h
  cases hm
  rfl

/-- The operand count of a default opcode byte. -/
theorem ls8_operandCount (mn : Mnemonic) : opcodeOperandCount mn.ls8Opcode = mn.operandCount := by
  cases mn <;> decide

/-- Operand decoding gives back an instruction's own operands. -/
theorem decodeOperands_self (i : Instr) (rest : List Byte) :
    decodeOperands i.mnemonic i.mnemonic.operandCount (i.operands ++ rest) = .ok (i, rest) := by
  cases i <;> rfl

/-- All that operand decoding can do when it answers. -/
theorem decodeOperands_eq_ok {mn : Mnemonic} {rest rest' : List Byte} {i : Instr}
    (h : decodeOperands mn mn.operandCount rest = .ok (i, rest')) :
    i.mnemonic = mn ∧ rest = i.operands ++ rest' := by
  cases mn <;> match rest, h with
    | [], h | [_], h | _ :: _ :: _, h => cases h <;> exact ⟨rfl, rfl⟩

/-- What decoding a nonempty list does. -/
theorem decodeWith_cons (m : OpcodeMap) (op : Byte) (rest : List Byte) :
    decodeWith m (op :: rest) = match m.lookup op with
      | none => .error (.illegalOpcode op)
      | some mn => decodeOperands mn (opcodeOperandCount op) rest := rfl

/-- All that decoding can do when it answers: a known opcode byte, then the instruction's operands. -/
theorem decodeWith_eq_ok {m : OpcodeMap} {bytes rest : List Byte} {i : Instr}
    (h : decodeWith m bytes = .ok (i, rest)) :
    ∃ op, m.lookup op = some i.mnemonic ∧ bytes = op :: i.operands ++ rest := by
  cases bytes with
  | nil => cases h
  | cons op bs =>
    rw [decodeWith_cons] at h
    split at h
    · cases h
    · rename_i mn hl
      rw [← (OpcodeMap.lookup_eq_some hl).2] at h
      obtain ⟨hm, rfl⟩ := decodeOperands_eq_ok h
      subst hm
      exact ⟨op, hl, rfl⟩

end Sys2Proof
end

