-- ==== Sys2Proof/Laws/Memory.lean ====
section
/-! SUPPORT. Memory: a read after a write, and the canonical form. -/

namespace Sys2Proof.Machine

@[simp] theorem Memory.read_nil (a : Nat) : Memory.read [] a = 0#8 := rfl

/-- Reading a memory whose first cell is put by `cons`. -/
theorem Memory.read_cons_other {m : Memory} {a b : Nat} {v : Byte} (h : b ≠ a) :
    (Memory.cons a v m).read b = m.read b := by
  unfold Memory.cons
  split
  · rfl
  · simp [Memory.read, Ne.symm h]

/-- A write leaves every other address alone. -/
theorem Memory.read_write_other (m : Memory) {a b : Nat} (v : Byte) (h : b ≠ a) :
    (m.write a v).read b = m.read b := by
  induction m with
  | nil => exact Memory.read_cons_other h
  | cons c m ih =>
    obtain ⟨k, w⟩ := c
    simp only [Memory.write]
    split
    · exact Memory.read_cons_other h
    · split
      · rename_i e
        subst e
        rw [Memory.read_cons_other h]
        simp [Memory.read, Ne.symm h]
      · simp only [Memory.read, ih]

/-- What the canonical form says, cell by cell. -/
theorem Memory.wf_iff (m : Memory) : m.wf = true ↔
    m.Pairwise (fun x y => x.1 < y.1) ∧ ∀ c ∈ m, c.1 < memorySize ∧ c.2 ≠ Memory.unlisted c.1 := by
  simp [Memory.wf]

/-- An address below every cell is not listed. -/
theorem Memory.read_of_lt {m : Memory} {a : Nat} (h : ∀ c ∈ m, a < c.1) : m.read a = Memory.unlisted a := by
  induction m with
  | nil => rfl
  | cons c m ih =>
    have hc : c.1 ≠ a := Nat.ne_of_gt (h c (by simp))
    obtain ⟨k, w⟩ := c
    simp only [Memory.read]
    rw [if_neg hc]
    exact ih fun c hm => h c (by simp [hm])

/-- Reading the cell put by `cons` before cells of higher addresses. -/
theorem Memory.read_cons_same {m : Memory} {a : Nat} {v : Byte} (h : ∀ c ∈ m, a < c.1) :
    (Memory.cons a v m).read a = v := by
  unfold Memory.cons
  split
  · rename_i e
    rw [Memory.read_of_lt h, e]
  · simp [Memory.read]

/-- A read after a write to the same address gives the value written. -/
theorem Memory.read_write_same {m : Memory} (hm : m.wf = true) (a : Nat) (v : Byte) :
    (m.write a v).read a = v := by
  replace hm := ((Memory.wf_iff m).mp hm).1
  induction m with
  | nil => exact Memory.read_cons_same (by simp)
  | cons c m ih =>
    obtain ⟨k, w⟩ := c
    obtain ⟨hk, hm⟩ := List.pairwise_cons.mp hm
    simp only [Memory.write]
    split
    · rename_i hlt
      refine Memory.read_cons_same fun c hc => ?_
      rcases List.mem_cons.mp hc with rfl | hc
      · exact hlt
      · exact Nat.lt_trans hlt (hk c hc)
    · split
      · rename_i e
        subst e
        exact Memory.read_cons_same hk
      · rename_i hne
        simp only [Memory.read]
        rw [if_neg (Ne.symm hne)]
        exact ih hm

/-- The cells of a memory with one put in front. -/
theorem Memory.mem_cons {m : Memory} {a : Nat} {v : Byte} {c : Host.Cell} (h : c ∈ Memory.cons a v m) :
    (c = (a, v) ∧ v ≠ Memory.unlisted a) ∨ c ∈ m := by
  unfold Memory.cons at h
  split at h
  · exact .inr h
  · rename_i hv
    rcases List.mem_cons.mp h with rfl | h
    · exact .inl ⟨rfl, hv⟩
    · exact .inr h

/-- Putting a cell before cells of higher addresses keeps the order. -/
theorem Memory.cons_pairwise {m : Memory} {a : Nat} {v : Byte} (h : ∀ c ∈ m, a < c.1)
    (hm : m.Pairwise fun x y => x.1 < y.1) : (Memory.cons a v m).Pairwise fun x y => x.1 < y.1 := by
  unfold Memory.cons
  split
  · exact hm
  · exact List.pairwise_cons.mpr ⟨h, hm⟩

/-- The cells of a written memory. -/
theorem Memory.mem_write {m : Memory} {a : Nat} {v : Byte} {c : Host.Cell} (h : c ∈ m.write a v) :
    (c = (a, v) ∧ v ≠ Memory.unlisted a) ∨ c ∈ m := by
  induction m with
  | nil => exact Memory.mem_cons h
  | cons d m ih =>
    obtain ⟨k, w⟩ := d
    simp only [Memory.write] at h
    split at h
    · exact Memory.mem_cons h
    · split at h
      · exact (Memory.mem_cons h).imp_right fun h => by simp [h]
      · rcases List.mem_cons.mp h with rfl | h
        · exact .inr (by simp)
        · exact (ih h).imp_right fun h => by simp [h]

/-- A write keeps the order of the cells. -/
theorem Memory.write_pairwise {m : Memory} (hm : m.Pairwise fun x y => x.1 < y.1) (a : Nat) (v : Byte) :
    (m.write a v).Pairwise fun x y => x.1 < y.1 := by
  induction m with
  | nil => exact Memory.cons_pairwise (by simp) hm
  | cons d m ih =>
    obtain ⟨k, w⟩ := d
    obtain ⟨hk, hm'⟩ := List.pairwise_cons.mp hm
    simp only [Memory.write]
    split
    · rename_i hlt
      refine Memory.cons_pairwise (fun c hc => ?_) hm
      rcases List.mem_cons.mp hc with rfl | hc
      · exact hlt
      · exact Nat.lt_trans hlt (hk c hc)
    · split
      · rename_i e
        subst e
        exact Memory.cons_pairwise hk hm'
      · rename_i hge hne
        refine List.pairwise_cons.mpr ⟨fun c hc => ?_, ih hm'⟩
        rcases Memory.mem_write hc with ⟨rfl, _⟩ | hc
        · exact Nat.lt_of_le_of_ne (Nat.not_lt.mp hge) (Ne.symm hne)
        · exact hk c hc

/-- A write inside the address space keeps the canonical form. -/
theorem Memory.wf_write {m : Memory} (hm : m.wf = true) {a : Nat} (ha : a < memorySize) (v : Byte) :
    (m.write a v).wf = true := by
  have h := (Memory.wf_iff m).mp hm
  refine (Memory.wf_iff _).mpr ⟨Memory.write_pairwise h.1 a v, fun c hc => ?_⟩
  rcases Memory.mem_write hc with ⟨rfl, hv⟩ | hc
  · exact ⟨ha, hv⟩
  · exact h.2 c hc

/-- A byte is always an address of the memory (R29, R42). -/
theorem byte_lt_memorySize (v : Byte) : v.toNat < memorySize := v.isLt

/-- Writing consecutive bytes inside the address space keeps the canonical form. -/
theorem Memory.wf_writeBytes {m : Memory} (hm : m.wf = true) {a : Nat} {vs : List Byte}
    (h : a + vs.length ≤ memorySize) : (m.writeBytes a vs).wf = true := by
  induction vs generalizing m a with
  | nil => exact hm
  | cons v vs ih =>
    simp only [List.length_cons] at h
    exact ih (Memory.wf_write hm (by omega) v) (by omega)

/-- What each address reads as after consecutive bytes are written. -/
theorem Memory.read_writeBytes {m : Memory} (hm : m.wf = true) {a : Nat} {vs : List Byte}
    (h : a + vs.length ≤ memorySize) (x : Nat) :
    (m.writeBytes a vs).read x = if a ≤ x ∧ x < a + vs.length then vs.getD (x - a) 0#8 else m.read x := by
  induction vs generalizing m a with
  | nil =>
    simp only [Memory.writeBytes, List.length_nil]
    rw [if_neg (by omega)]
  | cons v vs ih =>
    simp only [List.length_cons] at h
    rw [Memory.writeBytes, ih (Memory.wf_write hm (by omega) v) (by omega)]
    simp only [List.length_cons]
    by_cases hx : x = a
    · subst hx
      rw [if_neg (by omega), if_pos (by omega), Memory.read_write_same hm]
      simp
    · rw [Memory.read_write_other _ _ hx]
      by_cases hr : a + 1 ≤ x ∧ x < a + 1 + vs.length
      · rw [if_pos hr, if_pos (by omega)]
        obtain ⟨d, rfl⟩ : ∃ d, x = a + 1 + d := ⟨x - (a + 1), by omega⟩
        rw [show a + 1 + d - (a + 1) = d by omega, show a + 1 + d - a = d + 1 by omega]
        simp
      · rw [if_neg hr, if_neg (by omega)]

/-- Placing instruction bytes keeps the canonical form. -/
theorem Memory.wf_place {m : Memory} (hm : m.wf = true) (a : Nat) (vs : List Byte) :
    (m.place a vs).wf = true := by
  induction vs generalizing m a with
  | nil => exact hm
  | cons v vs ih =>
    simp only [Memory.place]
    refine ih ?_ _
    split
    · exact Memory.wf_write hm ‹_› v
    · exact hm

/-- Placing bytes that fit is writing them. -/
theorem Memory.place_eq_writeBytes {m : Memory} {a : Nat} {vs : List Byte} (h : a + vs.length ≤ memorySize) :
    m.place a vs = m.writeBytes a vs := by
  induction vs generalizing m a with
  | nil => rfl
  | cons v vs ih =>
    simp only [List.length_cons] at h
    simp only [Memory.place, Memory.writeBytes]
    rw [if_pos (by omega), ih (by omega)]

end Sys2Proof.Machine
end

