-- ==== Sys2Proof/Laws/Registers.lean ====
section
/-! SUPPORT. What reading and writing a register can do. -/

namespace Sys2Proof.Machine

/-- Every outcome of a register read, by what the register file holds. -/
theorem readReg_ok_iff {s : State} {i v : Byte} : readReg s i = .ok v ↔ s.regs[i.toNat]? = some (some v) := by
  unfold readReg
  split <;> simp_all

/-- A read looks at the register file alone. -/
theorem readReg_congr {s t : State} (h : t.regs = s.regs) (i : Byte) : readReg t i = readReg s i := by
  unfold readReg
  rw [h]

@[simp] theorem readReg_setPc (s : State) (n : Nat) (i : Byte) : readReg { s with pc := n } i = readReg s i := rfl
@[simp] theorem readReg_setMem (s : State) (m : Memory) (i : Byte) : readReg { s with mem := m } i = readReg s i := rfl
@[simp] theorem readReg_emit (s : State) (e : Event) (i : Byte) : readReg (emit s e) i = readReg s i := rfl
@[simp] theorem readReg_takeFault (s : State) (f : CoreFault) (i : Byte) : readReg (takeFault s f) i = readReg s i := rfl
@[simp] theorem readReg_jumpTo (s : State) (v i : Byte) : readReg (jumpTo s v) i = readReg s i := rfl
@[simp] theorem readReg_beginStep (s : State) (i : Byte) : readReg (beginStep s) i = readReg s i := rfl

/-- A register that reads is one of the eight. -/
theorem lt_of_readReg_ok {s : State} {i v : Byte} (h : readReg s i = .ok v) : i.toNat < registerCount := by
  have h := readReg_ok_iff.mp h
  exact (Vector.getElem?_eq_some_iff.mp h).1

/-- A read fails in one of two ways (R24, R22). -/
theorem readReg_error_cases {s : State} {i : Byte} {f : CoreFault} (h : readReg s i = .error f) :
    (registerCount ≤ i.toNat ∧ f = .registerIndex i) ∨
      (s.regs[i.toNat]? = some none ∧ f = .uninitialisedRegister i) := by
  unfold readReg at h
  split at h <;> simp_all

/-- What register j holds after register i is written. -/
theorem getElem?_setReg (s : State) (i v : Byte) (j : Nat) :
    (s.setReg i v).regs[j]? =
      if i.toNat = j ∧ j < registerCount then some (some v) else s.regs[j]? := by
  simp only [State.setReg, Vector.getElem?_setIfInBounds]
  by_cases h : i.toNat = j <;> by_cases hj : j < registerCount <;> simp_all

/-- Reading back the register just written. -/
theorem readReg_setReg_same {s : State} {i v : Byte} (h : i.toNat < registerCount) :
    readReg (s.setReg i v) i = .ok v := by
  rw [readReg_ok_iff, getElem?_setReg]
  simp [h]

/-- Reading another register than the one just written. -/
theorem readReg_setReg_other {s : State} {i j v : Byte} (h : i ≠ j) :
    readReg (s.setReg i v) j = readReg s j := by
  have h' : i.toNat ≠ j.toNat := fun e => h (BitVec.eq_of_toNat_eq e)
  unfold readReg
  rw [getElem?_setReg]
  simp [h']

/-- Writing a register of the file. -/
theorem writeReg_of_lt {s : State} {i v : Byte} (h : i.toNat < registerCount) :
    writeReg s i v = .ok (s.setReg i v) := by
  simp [writeReg, h]

/-- Writing past the register file (R24). -/
theorem writeReg_of_ge {s : State} {i v : Byte} (h : registerCount ≤ i.toNat) :
    writeReg s i v = .error (.registerIndex i) := by
  have h' : ¬ i.toNat < registerCount := Nat.not_lt.mpr h
  simp only [writeReg, if_neg h']

/-- Everything a register write can do. -/
theorem writeReg_cases (s : State) (i v : Byte) :
    (i.toNat < registerCount ∧ writeReg s i v = .ok (s.setReg i v)) ∨
      (registerCount ≤ i.toNat ∧ writeReg s i v = .error (.registerIndex i)) := by
  rcases Nat.lt_or_ge i.toNat registerCount with h | h
  · exact .inl ⟨h, writeReg_of_lt h⟩
  · exact .inr ⟨h, writeReg_of_ge h⟩

@[simp] theorem regSP_lt : regSP.toNat < registerCount := by decide
@[simp] theorem regFL_lt : regFL.toNat < registerCount := by decide

@[simp] theorem writeReg_regSP (s : State) (v : Byte) : writeReg s regSP v = .ok (s.setReg regSP v) :=
  writeReg_of_lt regSP_lt
@[simp] theorem writeReg_regFL (s : State) (v : Byte) : writeReg s regFL v = .ok (s.setReg regFL v) :=
  writeReg_of_lt regFL_lt

/-- Writing a register twice is writing it once. -/
theorem setReg_setReg_same (s : State) (i v w : Byte) : (s.setReg i v).setReg i w = s.setReg i w := by
  simp only [State.setReg, State.mk.injEq, and_true]
  ext j
  simp [Vector.getElem_setIfInBounds]

/-- Writing a register with the value it holds changes nothing. -/
theorem setReg_eq_self {s : State} {i v : Byte} (h : readReg s i = .ok v) : s.setReg i v = s := by
  have h := readReg_ok_iff.mp h
  cases s with
  | mk regs pc mem run steps out =>
    simp only [State.setReg, State.mk.injEq, and_true] at h ⊢
    ext1 j hj
    rw [Vector.getElem_setIfInBounds]
    split
    · rename_i e
      subst e
      rw [Vector.getElem?_eq_getElem hj] at h
      exact (Option.some.inj h).symm
    · rfl

end Sys2Proof.Machine
end

