-- ==== Sys2Proof/Laws/Effects.lean ====
section
/-! SUPPORT. What each shared operation does, said once: an equation for each way it can go, and an inversion lemma
("if it answers ok t, then ..."). -/

namespace Sys2Proof.Machine

/-! ## Sequencing -/

@[simp] theorem ok_bind {α β : Type} (a : α) (k : α → Except CoreFault β) : (Except.ok a >>= k) = k a := rfl
@[simp] theorem error_bind {α β : Type} (f : CoreFault) (k : α → Except CoreFault β) :
    ((Except.error f : Except CoreFault α) >>= k) = Except.error f := rfl

/-- A sequence answers when both its parts do. -/
theorem bind_eq_ok {α β : Type} {x : Except CoreFault α} {k : α → Except CoreFault β} {b : β} :
    (x >>= k) = .ok b ↔ ∃ a, x = .ok a ∧ k a = .ok b := by
  cases x with
  | ok a => simp
  | error f => simp

/-- A sequence raises what its first raising part raises. -/
theorem bind_eq_error {α β : Type} {x : Except CoreFault α} {k : α → Except CoreFault β} {f : CoreFault} :
    (x >>= k) = .error f ↔ x = .error f ∨ ∃ a, x = .ok a ∧ k a = .error f := by
  cases x with
  | ok a => simp
  | error g => simp

/-! ## The end of an instruction -/

@[simp] theorem complete_ok (s t : State) : complete s (.ok t) = .next t := rfl
@[simp] theorem complete_error (s : State) (f : CoreFault) : complete s (.error f) = .next (takeFault s f) := rfl
@[simp] theorem advance_ok (i : Instr) (t : State) : advance i (.ok t) = .ok { t with pc := t.pc + i.length } := rfl
@[simp] theorem advance_error (i : Instr) (f : CoreFault) : advance i (.error f) = .error f := rfl

/-- An instruction always ends in a next state: its effect, or the fault it raised. -/
theorem complete_eq_next {s t : State} {e : Except CoreFault State} (h : complete s e = .next t) :
    e = .ok t ∨ ∃ f, e = .error f ∧ t = takeFault s f := by
  cases e with
  | ok u => exact .inl (by simpa using h)
  | error f => exact .inr ⟨f, rfl, by simpa using h.symm⟩

/-- An effect after the dispatcher's pc update. -/
theorem advance_eq_ok {i : Instr} {e : Except CoreFault State} {t : State} (h : advance i e = .ok t) :
    ∃ u, e = .ok u ∧ t = { u with pc := u.pc + i.length } := by
  cases e with
  | ok u => exact ⟨u, rfl, by simpa using h.symm⟩
  | error f => simp at h

/-- The dispatcher's pc update raises nothing. -/
theorem advance_eq_error {i : Instr} {e : Except CoreFault State} {f : CoreFault} (h : advance i e = .error f) :
    e = .error f := by
  cases e with
  | ok u => simp at h
  | error g => simpa using h

/-! ## Register operands -/

theorem regReg_ok {f : Byte → Byte → Except CoreFault Byte} {a b va vb v : Byte} {s : State}
    (ha : readReg s a = .ok va) (hb : readReg s b = .ok vb) (hv : f va vb = .ok v) :
    regReg f a b s = .ok (s.setReg a v) := by
  simp [regReg, ha, hb, hv, writeReg_of_lt (lt_of_readReg_ok ha)]

theorem regReg_error_left {f : Byte → Byte → Except CoreFault Byte} {a : Byte} {s : State} {e : CoreFault}
    (ha : readReg s a = .error e) (b : Byte) : regReg f a b s = .error e := by
  simp [regReg, ha]

theorem regReg_error_right {f : Byte → Byte → Except CoreFault Byte} {a b va : Byte} {s : State} {e : CoreFault}
    (ha : readReg s a = .ok va) (hb : readReg s b = .error e) : regReg f a b s = .error e := by
  simp [regReg, ha, hb]

theorem regReg_error_result {f : Byte → Byte → Except CoreFault Byte} {a b va vb : Byte} {s : State} {e : CoreFault}
    (ha : readReg s a = .ok va) (hb : readReg s b = .ok vb) (hf : f va vb = .error e) :
    regReg f a b s = .error e := by
  simp [regReg, ha, hb, hf]

/-- All that a two-operand ALU operation can do. -/
theorem regReg_eq_ok {f : Byte → Byte → Except CoreFault Byte} {a b : Byte} {s t : State}
    (h : regReg f a b s = .ok t) :
    ∃ va vb v, readReg s a = .ok va ∧ readReg s b = .ok vb ∧ f va vb = .ok v ∧ t = s.setReg a v := by
  obtain ⟨va, ha, h⟩ := bind_eq_ok.mp h
  obtain ⟨vb, hb, h⟩ := bind_eq_ok.mp h
  obtain ⟨v, hv, h⟩ := bind_eq_ok.mp h
  rw [writeReg_of_lt (lt_of_readReg_ok ha)] at h
  exact ⟨va, vb, v, ha, hb, hv, by simpa using h.symm⟩

/-- All that a two-operand ALU operation can raise. -/
theorem regReg_eq_error {f : Byte → Byte → Except CoreFault Byte} {a b : Byte} {s : State} {e : CoreFault}
    (h : regReg f a b s = .error e) :
    readReg s a = .error e ∨ readReg s b = .error e ∨
      ∃ va vb, readReg s a = .ok va ∧ readReg s b = .ok vb ∧ f va vb = .error e := by
  rcases bind_eq_error.mp h with h | ⟨va, ha, h⟩
  · exact .inl h
  rcases bind_eq_error.mp h with h | ⟨vb, hb, h⟩
  · exact .inr (.inl h)
  rcases bind_eq_error.mp h with h | ⟨v, _, h⟩
  · exact .inr (.inr ⟨va, vb, ha, hb, h⟩)
  · rw [writeReg_of_lt (lt_of_readReg_ok ha)] at h
    cases h

theorem regOnly_ok {f : Byte → Byte} {a va : Byte} {s : State} (ha : readReg s a = .ok va) :
    regOnly f a s = .ok (s.setReg a (f va)) := by
  simp [regOnly, ha, writeReg_of_lt (lt_of_readReg_ok ha)]

theorem regOnly_error {f : Byte → Byte} {a : Byte} {s : State} {e : CoreFault} (ha : readReg s a = .error e) :
    regOnly f a s = .error e := by
  simp [regOnly, ha]

/-- All that a one-operand ALU operation can do. -/
theorem regOnly_eq_ok {f : Byte → Byte} {a : Byte} {s t : State} (h : regOnly f a s = .ok t) :
    ∃ va, readReg s a = .ok va ∧ t = s.setReg a (f va) := by
  obtain ⟨va, ha, h⟩ := bind_eq_ok.mp h
  rw [writeReg_of_lt (lt_of_readReg_ok ha)] at h
  exact ⟨va, ha, by simpa using h.symm⟩

/-- All that a one-operand ALU operation can raise. -/
theorem regOnly_eq_error {f : Byte → Byte} {a : Byte} {s : State} {e : CoreFault} (h : regOnly f a s = .error e) :
    readReg s a = .error e := by
  rcases bind_eq_error.mp h with h | ⟨va, ha, h⟩
  · exact h
  · rw [writeReg_of_lt (lt_of_readReg_ok ha)] at h
    cases h

theorem compareOperands_ok {a b va vb : Byte} {s : State} (ha : readReg s a = .ok va) (hb : readReg s b = .ok vb) :
    compareOperands a b s = .ok (s.setReg regFL (compareFlags va vb)) := by
  simp [compareOperands, ha, hb]

/-- All that CMP can do. -/
theorem compareOperands_eq_ok {a b : Byte} {s t : State} (h : compareOperands a b s = .ok t) :
    ∃ va vb, readReg s a = .ok va ∧ readReg s b = .ok vb ∧ t = s.setReg regFL (compareFlags va vb) := by
  obtain ⟨va, ha, h⟩ := bind_eq_ok.mp h
  obtain ⟨vb, hb, h⟩ := bind_eq_ok.mp h
  exact ⟨va, vb, ha, hb, by simpa using h.symm⟩

/-- All that CMP can raise. -/
theorem compareOperands_eq_error {a b : Byte} {s : State} {e : CoreFault} (h : compareOperands a b s = .error e) :
    readReg s a = .error e ∨ readReg s b = .error e := by
  rcases bind_eq_error.mp h with h | ⟨va, ha, h⟩
  · exact .inl h
  rcases bind_eq_error.mp h with h | ⟨vb, hb, h⟩
  · exact .inr h
  · simp at h

/-! ## The stack -/

theorem decSP_ok {s : State} {sp : Byte} (h : readReg s regSP = .ok sp) :
    decSP s = .ok (s.setReg regSP (sp - 1#8)) := by
  simp [decSP, h]

theorem incSP_ok {s : State} {sp : Byte} (h : readReg s regSP = .ok sp) :
    incSP s = .ok (s.setReg regSP (sp + 1#8)) := by
  simp [incSP, h]

theorem storeTop_ok {s : State} {sp : Byte} (h : readReg s regSP = .ok sp) (v : Byte) :
    storeTop s v = .ok { s with mem := s.mem.write sp.toNat v } := by
  simp [storeTop, h]

theorem loadTop_ok {s : State} {sp : Byte} (h : readReg s regSP = .ok sp) :
    loadTop s = .ok (s.mem.read sp.toNat) := by
  simp [loadTop, h]

/-- What a register reads as after SP is written. -/
theorem readReg_setSP {s : State} {a va : Byte} (v : Byte) (h : readReg s a = .ok va) :
    readReg (s.setReg regSP v) a = .ok (if a = regSP then v else va) := by
  by_cases e : a = regSP
  · subst e
    rw [readReg_setReg_same regSP_lt, if_pos rfl]
  · rw [readReg_setReg_other (Ne.symm e), h, if_neg e]

/-- Writing SP makes no other register unreadable. -/
theorem readReg_setSP_error {s : State} {a sp : Byte} {f : CoreFault} (v : Byte) (hs : readReg s regSP = .ok sp)
    (h : readReg s a = .error f) : readReg (s.setReg regSP v) a = .error f := by
  have e : a ≠ regSP := by
    rintro rfl
    rw [hs] at h
    cases h
  rw [readReg_setReg_other (Ne.symm e), h]

theorem push_ok {s : State} {a sp va : Byte} (hs : readReg s regSP = .ok sp) (ha : readReg s a = .ok va) :
    push a s = .ok { s.setReg regSP (sp - 1#8) with
      mem := s.mem.write (sp - 1#8).toNat (if a = regSP then sp - 1#8 else va) } := by
  rw [push, decSP_ok hs, ok_bind, readReg_setSP _ ha, ok_bind, storeTop_ok (readReg_setReg_same regSP_lt)]
  rfl

theorem push_error {s : State} {a sp : Byte} {f : CoreFault} (hs : readReg s regSP = .ok sp)
    (ha : readReg s a = .error f) : push a s = .error f := by
  rw [push, decSP_ok hs, ok_bind, readReg_setSP_error _ hs ha, error_bind]

theorem pop_ok {s : State} {a sp : Byte} (hs : readReg s regSP = .ok sp) (ha : a.toNat < registerCount) :
    pop a s = .ok ((s.setReg a (s.mem.read sp.toNat)).setReg regSP
      ((if a = regSP then s.mem.read sp.toNat else sp) + 1#8)) := by
  have h : readReg (s.setReg a (s.mem.read sp.toNat)) regSP =
      .ok (if a = regSP then s.mem.read sp.toNat else sp) := by
    by_cases e : a = regSP
    · subst e
      rw [readReg_setReg_same regSP_lt, if_pos rfl]
    · rw [readReg_setReg_other e, hs, if_neg e]
  rw [pop, loadTop_ok hs, ok_bind, writeReg_of_lt ha, ok_bind, incSP_ok h]

theorem pop_error {s : State} {a sp : Byte} (hs : readReg s regSP = .ok sp) (ha : registerCount ≤ a.toNat) :
    pop a s = .error (.registerIndex a) := by
  rw [pop, loadTop_ok hs, ok_bind, writeReg_of_ge ha, error_bind]

theorem call_ok {s : State} {a sp va : Byte} (hp : s.pc + 2 ≤ 255) (hs : readReg s regSP = .ok sp)
    (ha : readReg s a = .ok va) :
    call a s = .ok { s.setReg regSP (sp - 1#8) with
      mem := s.mem.write (sp - 1#8).toNat (BitVec.ofNat 8 (s.pc + 2))
      pc := (if a = regSP then sp - 1#8 else va).toNat } := by
  have hp' : ¬ returnAddress s > 255 := Nat.not_lt.mpr hp
  rw [call, if_neg hp', decSP_ok hs, ok_bind, storeTop_ok (readReg_setReg_same regSP_lt), ok_bind,
    readReg_setMem, readReg_setSP _ ha, ok_bind]
  rfl

theorem call_error_return {s : State} {a : Byte} (hp : 255 < s.pc + 2) :
    call a s = .error (.returnAddressOutOfRange (s.pc + 2)) := by
  have hp' : returnAddress s > 255 := hp
  rw [call, if_pos hp']
  rfl

theorem call_error_target {s : State} {a sp : Byte} {f : CoreFault} (hp : s.pc + 2 ≤ 255)
    (hs : readReg s regSP = .ok sp) (ha : readReg s a = .error f) : call a s = .error f := by
  have hp' : ¬ returnAddress s > 255 := Nat.not_lt.mpr hp
  rw [call, if_neg hp', decSP_ok hs, ok_bind, storeTop_ok (readReg_setReg_same regSP_lt), ok_bind,
    readReg_setMem, readReg_setSP_error _ hs ha, error_bind]

theorem ret_ok {s : State} {sp : Byte} (hs : readReg s regSP = .ok sp) :
    ret s = .ok { s.setReg regSP (sp + 1#8) with pc := (s.mem.read sp.toNat).toNat } := by
  rw [ret, loadTop_ok hs, ok_bind, incSP_ok (by rw [readReg_jumpTo, hs])]
  rfl

/-- All that PUSH can do. -/
theorem push_eq_ok {a : Byte} {s t : State} (h : push a s = .ok t) :
    ∃ sp va, readReg s regSP = .ok sp ∧ readReg s a = .ok va ∧
      t = { s.setReg regSP (sp - 1#8) with
        mem := s.mem.write (sp - 1#8).toNat (if a = regSP then sp - 1#8 else va) } := by
  obtain ⟨s₁, h₁, -⟩ := bind_eq_ok.mp h
  obtain ⟨sp, hs, -⟩ := bind_eq_ok.mp h₁
  cases ha : readReg s a with
  | ok va =>
    rw [push_ok hs ha] at h
    exact ⟨sp, va, hs, rfl, by simpa using h.symm⟩
  | error f =>
    rw [push_error hs ha] at h
    cases h

/-- All that POP can do. -/
theorem pop_eq_ok {a : Byte} {s t : State} (h : pop a s = .ok t) :
    ∃ sp, readReg s regSP = .ok sp ∧ a.toNat < registerCount ∧
      t = (s.setReg a (s.mem.read sp.toNat)).setReg regSP
        ((if a = regSP then s.mem.read sp.toNat else sp) + 1#8) := by
  obtain ⟨v, h₁, -⟩ := bind_eq_ok.mp h
  obtain ⟨sp, hs, -⟩ := bind_eq_ok.mp h₁
  rcases Nat.lt_or_ge a.toNat registerCount with ha | ha
  · rw [pop_ok hs ha] at h
    exact ⟨sp, hs, ha, by simpa using h.symm⟩
  · rw [pop_error hs ha] at h
    cases h

/-- All that CALL can do. -/
theorem call_eq_ok {a : Byte} {s t : State} (h : call a s = .ok t) :
    ∃ sp va, s.pc + 2 ≤ 255 ∧ readReg s regSP = .ok sp ∧ readReg s a = .ok va ∧
      t = { s.setReg regSP (sp - 1#8) with
        mem := s.mem.write (sp - 1#8).toNat (BitVec.ofNat 8 (s.pc + 2))
        pc := (if a = regSP then sp - 1#8 else va).toNat } := by
  rcases Nat.lt_or_ge 255 (s.pc + 2) with hp | hp
  · rw [call_error_return hp] at h
    cases h
  · have hp' : ¬ returnAddress s > 255 := Nat.not_lt.mpr hp
    have h' := h
    rw [call, if_neg hp'] at h'
    obtain ⟨s₁, h₁, -⟩ := bind_eq_ok.mp h'
    obtain ⟨sp, hs, -⟩ := bind_eq_ok.mp h₁
    cases ha : readReg s a with
    | ok va =>
      rw [call_ok hp hs ha] at h
      exact ⟨sp, va, hp, hs, rfl, by simpa using h.symm⟩
    | error f =>
      rw [call_error_target hp hs ha] at h
      cases h

/-- All that RET can do. -/
theorem ret_eq_ok {s t : State} (h : ret s = .ok t) :
    ∃ sp, readReg s regSP = .ok sp ∧
      t = { s.setReg regSP (sp + 1#8) with pc := (s.mem.read sp.toNat).toNat } := by
  obtain ⟨v, h₁, -⟩ := bind_eq_ok.mp h
  obtain ⟨sp, hs, -⟩ := bind_eq_ok.mp h₁
  rw [ret_ok hs] at h
  exact ⟨sp, hs, by simpa using h.symm⟩

/-! ## Jumps -/

theorem jump_ok {s : State} {a va : Byte} (ha : readReg s a = .ok va) : jump a s = .ok (jumpTo s va) := by
  simp [jump, ha]

theorem jump_error {s : State} {a : Byte} {f : CoreFault} (ha : readReg s a = .error f) : jump a s = .error f := by
  simp [jump, ha]

/-- All that JMP can do. -/
theorem jump_eq_ok {a : Byte} {s t : State} (h : jump a s = .ok t) :
    ∃ va, readReg s a = .ok va ∧ t = jumpTo s va := by
  obtain ⟨va, ha, h⟩ := bind_eq_ok.mp h
  exact ⟨va, ha, by simpa using h.symm⟩

theorem condJump_no_flags {i : Instr} {cond : Bool → Bool → Bool → Bool} {a : Byte} {s : State} {f : CoreFault}
    (h : readReg s regFL = .error f) : condJump i cond a s = .error f := by
  simp [condJump, h]

theorem condJump_taken {i : Instr} {cond : Bool → Bool → Bool → Bool} {a fl : Byte} {s : State}
    (h : readReg s regFL = .ok fl) (hc : cond (flagE fl) (flagG fl) (flagL fl) = true) :
    condJump i cond a s = jump a s := by
  simp [condJump, h, hc, jump]

theorem condJump_not_taken {i : Instr} {cond : Bool → Bool → Bool → Bool} {a fl : Byte} {s : State}
    (h : readReg s regFL = .ok fl) (hc : cond (flagE fl) (flagG fl) (flagL fl) = false) :
    condJump i cond a s = .ok { s with pc := s.pc + i.length } := by
  simp [condJump, h, hc]

/-- All that a conditional jump can do. -/
theorem condJump_eq_ok {i : Instr} {cond : Bool → Bool → Bool → Bool} {a : Byte} {s t : State}
    (h : condJump i cond a s = .ok t) :
    ∃ fl, readReg s regFL = .ok fl ∧
      ((cond (flagE fl) (flagG fl) (flagL fl) = true ∧ ∃ va, readReg s a = .ok va ∧ t = jumpTo s va) ∨
        (cond (flagE fl) (flagG fl) (flagL fl) = false ∧ t = { s with pc := s.pc + i.length })) := by
  obtain ⟨fl, hf, -⟩ := bind_eq_ok.mp h
  refine ⟨fl, hf, ?_⟩
  cases hc : cond (flagE fl) (flagG fl) (flagL fl) with
  | true =>
    rw [condJump_taken hf hc] at h
    exact .inl ⟨rfl, jump_eq_ok h⟩
  | false =>
    rw [condJump_not_taken hf hc] at h
    exact .inr ⟨rfl, by simpa using h.symm⟩

/-! ## Output -/

theorem print_ok {s : State} {a va : Byte} (ha : readReg s a = .ok va) : print a s = .ok (emit s (.prn va)) := by
  simp [print, ha]

/-- All that PRN can do. -/
theorem print_eq_ok {a : Byte} {s t : State} (h : print a s = .ok t) :
    ∃ va, readReg s a = .ok va ∧ t = emit s (.prn va) := by
  obtain ⟨va, ha, h⟩ := bind_eq_ok.mp h
  exact ⟨va, ha, by simpa using h.symm⟩

end Sys2Proof.Machine
end

