-- ==== Sys2Proof/Laws/Exec.lean ====
section
/-! SUPPORT. Every instruction is an effect that completes or raises; what an effect can do, said once. -/

namespace Sys2Proof.Machine

/-- A register reads exactly what it holds. -/
theorem holds_iff {s : State} {i v : Byte} : s.Holds i v ↔ readReg s i = .ok v := by
  rw [readReg_ok_iff, Vector.getElem?_eq_some_iff]
  constructor
  · rintro ⟨r, hr, h⟩
    exact ⟨hr ▸ r.isLt, by simpa [hr] using h⟩
  · rintro ⟨hi, h⟩
    exact ⟨⟨i.toNat, hi⟩, rfl, h⟩

/-- A register read raises exactly the fault the register file gives it. -/
theorem readFault_iff {s : State} {i : Byte} {f : CoreFault} : s.ReadFault i f ↔ readReg s i = .error f := by
  constructor
  · rintro (⟨hi, rfl⟩ | ⟨r, hr, h, rfl⟩)
    · unfold readReg
      rw [Vector.getElem?_eq_none hi]
    · unfold readReg
      rw [hr, Vector.getElem?_eq_getElem r.isLt, show s.regs[r.val] = none from h]
  · intro h
    rcases readReg_error_cases h with ⟨hi, rfl⟩ | ⟨hu, rfl⟩
    · exact .inl ⟨hi, rfl⟩
    · obtain ⟨hi, hu⟩ := Vector.getElem?_eq_some_iff.mp hu
      exact .inr ⟨⟨i.toNat, hi⟩, rfl, hu, rfl⟩

/-- The effect of an instruction: the state it leaves, or the fault it raises. -/
def effectOf (i : Instr) (s : State) : Except CoreFault State :=
  match i with
  | .add a b => advance (.add a b) (regReg (fun x y => .ok (x + y)) a b s)
  | .sub a b => advance (.sub a b) (regReg (fun x y => .ok (x - y)) a b s)
  | .mul a b => advance (.mul a b) (regReg (fun x y => .ok (x * y)) a b s)
  | .div a b => advance (.div a b) (regReg divide a b s)
  | .mod a b => advance (.mod a b) (regReg remainder a b s)
  | .inc a => advance (.inc a) (regOnly (fun x => x + 1#8) a s)
  | .dec a => advance (.dec a) (regOnly (fun x => x - 1#8) a s)
  | .cmp a b => advance (.cmp a b) (compareOperands a b s)
  | .and a b => advance (.and a b) (regReg (fun x y => .ok (x &&& y)) a b s)
  | .not a => advance (.not a) (regOnly (fun x => ~~~x) a s)
  | .or a b => advance (.or a b) (regReg (fun x y => .ok (x ||| y)) a b s)
  | .xor a b => advance (.xor a b) (regReg (fun x y => .ok (x ^^^ y)) a b s)
  | .shl a b => advance (.shl a b) (regReg (fun x y => .ok (x <<< y.toNat)) a b s)
  | .shr a b => advance (.shr a b) (regReg (fun x y => .ok (x >>> y.toNat)) a b s)
  | .push a => advance (.push a) (push a s)
  | .pop a => advance (.pop a) (pop a s)
  | .call a => call a s
  | .ret => ret s
  | .jmp a => jump a s
  | .jeq a => condJump (.jeq a) (fun E _ _ => E) a s
  | .jne a => condJump (.jne a) (fun E _ _ => !E) a s
  | .jgt a => condJump (.jgt a) (fun _ G _ => G) a s
  | .jlt a => condJump (.jlt a) (fun _ _ L => L) a s
  | .jle a => condJump (.jle a) (fun E _ L => L || E) a s
  | .jge a => condJump (.jge a) (fun E G _ => G || E) a s
  | .ldi a imm => advance (.ldi a imm) (writeReg s a imm)
  | .prn a => advance (.prn a) (print a s)
  | .pra a => advance (.pra a) (stub .pra s)
  | .hlt => .ok { s with run := .halted }
  | .int a => advance (.int a) (stub .int s)
  | .iret => advance .iret (stub .iret s)

theorem exec_eq_complete (i : Instr) (s : State) : exec i s = complete s (effectOf i s) := by
  cases i <;> rfl

/-- All that executing an instruction can do: complete with its effect, or take the fault it raised. -/
theorem exec_cases {i : Instr} {s t : State} (h : exec i s = .next t) :
    effectOf i s = .ok t ∨ ∃ f, effectOf i s = .error f ∧ t = takeFault s f :=
  complete_eq_next (by rw [← exec_eq_complete, h])

/-- Executing an instruction always gives a next state. -/
theorem exec_next (i : Instr) (s : State) : ∃ t, exec i s = .next t := by
  rw [exec_eq_complete]
  cases effectOf i s with
  | ok t => exact ⟨t, rfl⟩
  | error f => exact ⟨_, rfl⟩

/-! ## The shapes of an effect -/

/-- What an effect that completes leaves, by shape: one register written; nothing but the pc; an event; the stack
instructions; HLT. -/
inductive EffectShape (i : Instr) (s : State) : State → Prop where
  | writes (d v : Byte) (hd : d ∈ i.writes) (hr : d.toNat < registerCount) (hw : ∀ w ∈ i.writes, w = d)
      (hp : i.mnemonic.setsPc = false) (hh : i ≠ .hlt) (he : i.event s = none) :
      EffectShape i s { s.setReg d v with pc := s.pc + i.length }
  | jumps (n : Nat) (hn : n ≤ 255 ∨ n = s.pc + i.length) (hw : i.writes = []) (hp : i.mnemonic.setsPc = true)
      (he : i.event s = none) : EffectShape i s { s with pc := n }
  | emits (e : Event) (hw : i.writes = []) (hp : i.mnemonic.setsPc = false) (hh : i ≠ .hlt)
      (he : i.event s = some e) : EffectShape i s { emit s e with pc := s.pc + i.length }
  | pushes (a sp v : Byte) (hi : i = .push a) (hs : readReg s regSP = .ok sp) :
      EffectShape i s { s.setReg regSP (sp - 1#8) with mem := s.mem.write (sp - 1#8).toNat v, pc := s.pc + i.length }
  | pops (a v sp w : Byte) (hi : i = .pop a) (ha : a.toNat < registerCount) (hs : readReg s regSP = .ok sp) :
      EffectShape i s { (s.setReg a v).setReg regSP w with pc := s.pc + i.length }
  | calls (a sp v target : Byte) (hi : i = .call a) (hs : readReg s regSP = .ok sp) :
      EffectShape i s { s.setReg regSP (sp - 1#8) with mem := s.mem.write (sp - 1#8).toNat v, pc := target.toNat }
  | returns (w target : Byte) (hi : i = .ret) : EffectShape i s { s.setReg regSP w with pc := target.toNat }
  | halts (hi : i = .hlt) : EffectShape i s { s with run := .halted }

theorem effectShape_regReg {i : Instr} {f : Byte → Byte → Except CoreFault Byte} {a b : Byte} {s t : State}
    (h : advance i (regReg f a b s) = .ok t) (hw : i.writes = [a]) (hp : i.mnemonic.setsPc = false)
    (hh : i ≠ .hlt) (he : i.event s = none) : EffectShape i s t := by
  obtain ⟨u, hu, rfl⟩ := advance_eq_ok h
  obtain ⟨va, vb, v, ha, -, -, rfl⟩ := regReg_eq_ok hu
  exact .writes a v (by simp [hw]) (lt_of_readReg_ok ha) (by simp [hw]) hp hh he

theorem effectShape_regOnly {i : Instr} {f : Byte → Byte} {a : Byte} {s t : State}
    (h : advance i (regOnly f a s) = .ok t) (hw : i.writes = [a]) (hp : i.mnemonic.setsPc = false)
    (hh : i ≠ .hlt) (he : i.event s = none) : EffectShape i s t := by
  obtain ⟨u, hu, rfl⟩ := advance_eq_ok h
  obtain ⟨va, ha, rfl⟩ := regOnly_eq_ok hu
  exact .writes a _ (by simp [hw]) (lt_of_readReg_ok ha) (by simp [hw]) hp hh he

theorem effectShape_condJump {i : Instr} {cond : Bool → Bool → Bool → Bool} {a : Byte} {s t : State}
    (h : condJump i cond a s = .ok t) (hw : i.writes = []) (hp : i.mnemonic.setsPc = true)
    (he : i.event s = none) : EffectShape i s t := by
  obtain ⟨fl, -, ⟨-, va, -, rfl⟩ | ⟨-, rfl⟩⟩ := condJump_eq_ok h
  · exact .jumps va.toNat (.inl (Nat.le_of_lt_succ va.isLt)) hw hp he
  · exact .jumps _ (.inr rfl) hw hp he

theorem effectShape_stub {i : Instr} {m : Stub} {s t : State} (h : advance i (stub m s) = .ok t)
    (hw : i.writes = []) (hp : i.mnemonic.setsPc = false) (hh : i ≠ .hlt)
    (he : i.event s = some (.unimplemented m s.pc)) : EffectShape i s t := by
  obtain ⟨u, hu, rfl⟩ := advance_eq_ok h
  cases hu
  exact .emits _ hw hp hh he

/-- The shape of every effect that completes. -/
theorem effectOf_shape {i : Instr} {s t : State} (h : effectOf i s = .ok t) : EffectShape i s t := by
  cases i with
  | add a b | sub a b | mul a b | div a b | mod a b | and a b | or a b | xor a b | shl a b | shr a b =>
    exact effectShape_regReg h rfl rfl (by simp) rfl
  | inc a | dec a | not a => exact effectShape_regOnly h rfl rfl (by simp) rfl
  | cmp a b =>
    obtain ⟨u, hu, rfl⟩ := advance_eq_ok h
    obtain ⟨va, vb, -, -, rfl⟩ := compareOperands_eq_ok hu
    exact .writes regFL _ (by simp [Instr.writes]) regFL_lt (by simp [Instr.writes]) rfl (by simp) rfl
  | push a =>
    obtain ⟨u, hu, rfl⟩ := advance_eq_ok h
    obtain ⟨sp, va, hs, -, rfl⟩ := push_eq_ok hu
    exact .pushes a sp _ rfl hs
  | pop a =>
    obtain ⟨u, hu, rfl⟩ := advance_eq_ok h
    obtain ⟨sp, hs, ha, rfl⟩ := pop_eq_ok hu
    exact .pops a _ sp _ rfl ha hs
  | call a =>
    obtain ⟨sp, va, -, hs, -, rfl⟩ := call_eq_ok h
    exact .calls a sp _ _ rfl hs
  | ret =>
    obtain ⟨sp, -, rfl⟩ := ret_eq_ok h
    exact .returns _ _ rfl
  | jmp a =>
    obtain ⟨va, -, rfl⟩ := jump_eq_ok h
    exact .jumps va.toNat (.inl (Nat.le_of_lt_succ va.isLt)) rfl rfl rfl
  | jeq a | jne a | jgt a | jlt a | jle a | jge a =>
    simp only [effectOf] at h
    exact effectShape_condJump h rfl rfl rfl
  | ldi a imm =>
    obtain ⟨u, hu, rfl⟩ := advance_eq_ok h
    rcases writeReg_cases s a imm with ⟨ha, hw⟩ | ⟨ha, hw⟩
    · rw [hw] at hu
      cases hu
      exact .writes a imm (by simp [Instr.writes]) ha (by simp [Instr.writes]) rfl (by simp) rfl
    · rw [hw] at hu
      cases hu
  | prn a =>
    obtain ⟨u, hu, rfl⟩ := advance_eq_ok h
    obtain ⟨va, ha, rfl⟩ := print_eq_ok hu
    exact .emits _ rfl rfl (by simp) (by simp [Instr.event, ha])
  | pra a | int a | iret => exact effectShape_stub h rfl rfl (by simp) rfl
  | hlt =>
    cases h
    exact .halts rfl

end Sys2Proof.Machine
end

