-- ==== Sys2Proof/Laws/Fetch.lean ====
section
/-! SUPPORT. What the fetch and the step around it can do. -/

namespace Sys2Proof.Machine

/-- The bytes the fetch reads, by how many lie below address 256. -/
theorem fetchWindow_three {s : State} (h : s.pc + 2 < memorySize) :
    fetchWindow s = [s.mem.read s.pc, s.mem.read (s.pc + 1), s.mem.read (s.pc + 2)] := by
  have e : min 3 (memorySize - s.pc) = 3 := by omega
  rw [fetchWindow, e]
  rfl

theorem fetchWindow_two {s : State} (h : s.pc + 2 = memorySize) :
    fetchWindow s = [s.mem.read s.pc, s.mem.read (s.pc + 1)] := by
  have e : min 3 (memorySize - s.pc) = 2 := by omega
  rw [fetchWindow, e]
  rfl

theorem fetchWindow_one {s : State} (h : s.pc + 1 = memorySize) : fetchWindow s = [s.mem.read s.pc] := by
  have e : min 3 (memorySize - s.pc) = 1 := by omega
  rw [fetchWindow, e]
  rfl

theorem fetchWindow_none {s : State} (h : memorySize ≤ s.pc) : fetchWindow s = [] := by
  have e : min 3 (memorySize - s.pc) = 0 := by omega
  rw [fetchWindow, e]
  rfl

/-- The window is never longer than what lies below address 256. -/
theorem fetchWindow_length (s : State) : (fetchWindow s).length = min 3 (memorySize - s.pc) := by
  simp [fetchWindow]

@[simp] theorem fetchWindow_beginStep (s : State) : fetchWindow (beginStep s) = fetchWindow s := rfl

/-- The `k`-th byte of the window is the memory's byte at pc + k. -/
theorem getElem?_fetchWindow {s : State} {k : Nat} (h : k < min 3 (memorySize - s.pc)) :
    (fetchWindow s)[k]? = some (s.mem.read (s.pc + k)) := by
  simp only [fetchWindow, List.getElem?_map]
  rw [List.getElem?_range' h]
  simp

@[simp] theorem fetch_beginStep (cfg : Config) (s : State) : fetch cfg (beginStep s) = fetch cfg s := rfl

/-- A fetch that answers has read a whole instruction below address 256. -/
theorem fetch_eq_ok {cfg : Config} {s : State} {i : Instr} (h : fetch cfg s = .ok i) :
    ∃ op rest, cfg.opcodeMap.lookup op = some i.mnemonic ∧ fetchWindow s = op :: i.operands ++ rest ∧
      s.pc + i.length ≤ memorySize := by
  unfold fetch at h
  split at h
  · rename_i j rest hd
    cases h
    obtain ⟨op, hl, hw⟩ := decodeWith_eq_ok hd
    refine ⟨op, rest, hl, hw, ?_⟩
    have hn := congrArg List.length hw
    rw [fetchWindow_length] at hn
    simp only [List.length_append, List.length_cons] at hn
    have := Instr.length_eq i
    omega
  · cases h
  · cases h

/-- With no step limit, a running core fetches and then executes or takes the fetch's fault. -/
theorem step_of_running {s : State} (h : s.run = .running) :
    step s = match fetch ls8Config s with
      | .ok i => exec i (beginStep s)
      | .error f => .next (takeFault (beginStep s) f) := by
  rw [step, stepWith, h]
  rfl

/-- A core that is not running has no step. -/
theorem stepWith_of_not_running {cfg : Config} {s : State} (h : s.run ≠ .running) :
    stepWith cfg s = .fault (.notRunning s.run) := by
  cases hr : s.run with
  | running => exact absurd hr h
  | halted | faulted f | stepLimitReached => rw [stepWith, hr]

/-- Only a running core gives a next state. -/
theorem running_of_stepWith {cfg : Config} {s t : State} (h : stepWith cfg s = .next t) : s.run = .running := by
  by_cases hr : s.run = .running
  · exact hr
  · rw [stepWith_of_not_running hr] at h
    cases h

/-- All that a step under any parameters can do: stop at the step limit; take a fault of the fetch; or execute the
instruction fetched. -/
theorem stepWith_cases {cfg : Config} {s t : State} (h : stepWith cfg s = .next t) :
    (limitReached cfg s = true ∧ t = { s with run := .stepLimitReached }) ∨
      (limitReached cfg s = false ∧
        ((∃ f, fetch cfg s = .error f ∧ t = takeFault (beginStep s) f) ∨
          ∃ i, fetch cfg s = .ok i ∧ exec i (beginStep s) = .next t)) := by
  have hr := running_of_stepWith h
  rw [stepWith, hr] at h
  simp only [cycle] at h
  split at h
  · rename_i hl
    cases h
    exact .inl ⟨hl, rfl⟩
  · rename_i hl
    refine .inr ⟨by simpa using hl, ?_⟩
    rw [fetch_beginStep] at h
    split at h
    · rename_i i hf
      exact .inr ⟨i, hf, h⟩
    · rename_i f hf
      cases h
      exact .inl ⟨f, hf, rfl⟩

end Sys2Proof.Machine
end

