-- ==== Sys2Proof/Laws/PerInstr.lean ====
section
/-! SUPPORT. Statements about every instruction as syntax, one lemma per constructor. -/

namespace Sys2Proof.Laws

/-- The layout of an instruction's default encoding (R61, R62, R68): its row is well formed, the identifier is the low
four bits, and the length its first byte announces is the number of its bytes. -/
def Layout.Statement (i : Instr) : Prop :=
  OpcodeRow.wellFormed ⟨i.mnemonic.ls8Opcode, i.mnemonic⟩ = true ∧
    opcodeLength i.mnemonic.ls8Opcode = (encode i).length ∧
    (encode i).length = i.length

/-- Every default row has the layout of R61. -/
theorem ls8_row_wellFormed (m : Mnemonic) : OpcodeRow.wellFormed ⟨m.ls8Opcode, m⟩ = true := by
  cases m <;> decide

/-- The layout of an instruction follows from that of its mnemonic's row. -/
theorem layout_of_row (i : Instr) : Layout.Statement i :=
  ⟨ls8_row_wellFormed i.mnemonic, by rw [encode_length, Instr.length, opcodeLength, ls8_operandCount], encode_length i⟩

theorem Layout.add (a b : Byte) : Layout.Statement (Instr.add a b) := layout_of_row _
theorem Layout.sub (a b : Byte) : Layout.Statement (Instr.sub a b) := layout_of_row _
theorem Layout.mul (a b : Byte) : Layout.Statement (Instr.mul a b) := layout_of_row _
theorem Layout.div (a b : Byte) : Layout.Statement (Instr.div a b) := layout_of_row _
theorem Layout.mod (a b : Byte) : Layout.Statement (Instr.mod a b) := layout_of_row _
theorem Layout.inc (a : Byte) : Layout.Statement (Instr.inc a) := layout_of_row _
theorem Layout.dec (a : Byte) : Layout.Statement (Instr.dec a) := layout_of_row _
theorem Layout.cmp (a b : Byte) : Layout.Statement (Instr.cmp a b) := layout_of_row _
theorem Layout.and (a b : Byte) : Layout.Statement (Instr.and a b) := layout_of_row _
theorem Layout.not (a : Byte) : Layout.Statement (Instr.not a) := layout_of_row _
theorem Layout.or (a b : Byte) : Layout.Statement (Instr.or a b) := layout_of_row _
theorem Layout.xor (a b : Byte) : Layout.Statement (Instr.xor a b) := layout_of_row _
theorem Layout.shl (a b : Byte) : Layout.Statement (Instr.shl a b) := layout_of_row _
theorem Layout.shr (a b : Byte) : Layout.Statement (Instr.shr a b) := layout_of_row _
theorem Layout.push (a : Byte) : Layout.Statement (Instr.push a) := layout_of_row _
theorem Layout.pop (a : Byte) : Layout.Statement (Instr.pop a) := layout_of_row _
theorem Layout.call (a : Byte) : Layout.Statement (Instr.call a) := layout_of_row _
theorem Layout.ret : Layout.Statement (Instr.ret) := layout_of_row _
theorem Layout.jmp (a : Byte) : Layout.Statement (Instr.jmp a) := layout_of_row _
theorem Layout.jeq (a : Byte) : Layout.Statement (Instr.jeq a) := layout_of_row _
theorem Layout.jne (a : Byte) : Layout.Statement (Instr.jne a) := layout_of_row _
theorem Layout.jgt (a : Byte) : Layout.Statement (Instr.jgt a) := layout_of_row _
theorem Layout.jlt (a : Byte) : Layout.Statement (Instr.jlt a) := layout_of_row _
theorem Layout.jle (a : Byte) : Layout.Statement (Instr.jle a) := layout_of_row _
theorem Layout.jge (a : Byte) : Layout.Statement (Instr.jge a) := layout_of_row _
theorem Layout.ldi (a imm : Byte) : Layout.Statement (Instr.ldi a imm) := layout_of_row _
theorem Layout.prn (a : Byte) : Layout.Statement (Instr.prn a) := layout_of_row _
theorem Layout.pra (a : Byte) : Layout.Statement (Instr.pra a) := layout_of_row _
theorem Layout.hlt : Layout.Statement (Instr.hlt) := layout_of_row _
theorem Layout.int (a : Byte) : Layout.Statement (Instr.int a) := layout_of_row _
theorem Layout.iret : Layout.Statement (Instr.iret) := layout_of_row _

end Sys2Proof.Laws
end

