-- ==== Sys2Proof/Tests/Slice0.lean ====
section
/-! SUPPORT. Tests. Expected results are from spec/30_encoding.md R67 (words), spec/95_test_vectors.md (L1, L2) and the
instruction rules; none is the model's own answer. -/

namespace Sys2Proof.Tests

open Sys2Proof.Machine

/-! ## Helpers -/

/-- A running state at a pc with given R0 to R3, FL, SP and memory; IM and IS unwritten. -/
def at_ (pc : Nat) (r0 r1 r2 r3 fl sp : Option Byte) (mem : Memory) : State where
  regs := #v[r0, r1, r2, r3, fl, none, none, sp]
  pc := pc
  mem := mem
  run := .running
  steps := 0
  out := []

/-- R0, R1 written, SP = 255, pc 0, the rest unwritten. -/
def two (a b : Byte) : State := at_ 0 (some a) (some b) none none none (some 255#8) []

/-- FL and R0 written, SP = 255, pc 12. -/
def flags (fl r0 : Byte) : State := at_ 12 (some r0) none none none (some fl) (some 255#8) []

/-- The next state's register. -/
def regOf (o : Host.Outcome State Fault Refusal) (r : Fin 8) : Option Byte :=
  match o with
  | .next t => t.regs[r]
  | .fault _ => none
  | .refused _ => none

/-- The next state's pc. -/
def pcOf (o : Host.Outcome State Fault Refusal) : Option Nat :=
  match o with
  | .next t => some t.pc
  | .fault _ => none
  | .refused _ => none

/-- The next state's byte at an address. -/
def byteOf (o : Host.Outcome State Fault Refusal) (a : Nat) : Option Byte :=
  match o with
  | .next t => some (t.mem.read a)
  | .fault _ => none
  | .refused _ => none

/-- The next state's run state and output. -/
def endOf (o : Host.Outcome State Fault Refusal) : Option (RunState × List Event) :=
  match o with
  | .next t => some (t.run, t.out)
  | .fault _ => none
  | .refused _ => none

/-- What a fault at pc leaves of a state that had no output (R175). -/
def faultedWith (f : CoreFault) (pc : Nat) : Option (RunState × List Event) := some (.faulted f, [.diag f pc])

/-! ## Well-formedness: each check refuses an ill-formed term -/

theorem test_row_wrong_operand_count : OpcodeRow.wellFormed ⟨0x65#8, .add⟩ = false := by decide
theorem test_row_wrong_alu_bit : OpcodeRow.wellFormed ⟨0x80#8, .add⟩ = false := by decide
theorem test_row_wrong_pc_bit : OpcodeRow.wellFormed ⟨0x44#8, .jmp⟩ = false := by decide
theorem test_map_with_byte_twice : OpcodeMap.wellFormed [⟨0xA0#8, .add⟩, ⟨0xA0#8, .sub⟩] = false := by decide
theorem test_map_with_bad_row : OpcodeMap.wellFormed [⟨0xA0#8, .hlt⟩] = false := by decide
theorem test_instr_without_row : Instr.wellFormed [⟨0x01#8, .hlt⟩] (.add 0#8 1#8) = false := by decide
theorem test_image_too_long : imageWellFormed (List.replicate 257 0#8) = false := by
  unfold imageWellFormed
  rw [List.length_replicate]
  decide

/-! ## Decoding: a word of each instruction, written out from the table of R67 -/

theorem test_decode_add : decode [0b10100000#8, 0#8, 1#8] = .ok (.add 0#8 1#8, []) := rfl
theorem test_decode_sub : decode [0b10100001#8, 2#8, 3#8] = .ok (.sub 2#8 3#8, []) := rfl
theorem test_decode_mul : decode [0b10100010#8, 0#8, 1#8] = .ok (.mul 0#8 1#8, []) := rfl
theorem test_decode_div : decode [0b10100011#8, 0#8, 1#8] = .ok (.div 0#8 1#8, []) := rfl
theorem test_decode_mod : decode [0b10100100#8, 7#8, 200#8] = .ok (.mod 7#8 200#8, []) := rfl
theorem test_decode_inc : decode [0b01100101#8, 0#8, 0b01000111#8] = .ok (.inc 0#8, [0b01000111#8]) := rfl
theorem test_decode_dec : decode [0b01100110#8, 1#8] = .ok (.dec 1#8, []) := rfl
theorem test_decode_cmp : decode [0b10100111#8, 2#8, 3#8] = .ok (.cmp 2#8 3#8, []) := rfl
theorem test_decode_and : decode [0b10101000#8, 0#8, 1#8] = .ok (.and 0#8 1#8, []) := rfl
theorem test_decode_not : decode [0b01101001#8, 3#8] = .ok (.not 3#8, []) := rfl
theorem test_decode_or : decode [0b10101010#8, 0#8, 1#8] = .ok (.or 0#8 1#8, []) := rfl
theorem test_decode_xor : decode [0b10101011#8, 0#8, 1#8] = .ok (.xor 0#8 1#8, []) := rfl
theorem test_decode_shl : decode [0b10101100#8, 0#8, 1#8] = .ok (.shl 0#8 1#8, []) := rfl
theorem test_decode_shr : decode [0b10101101#8, 0#8, 1#8] = .ok (.shr 0#8 1#8, []) := rfl
theorem test_decode_push : decode [0b01000101#8, 9#8] = .ok (.push 9#8, []) := rfl
theorem test_decode_pop : decode [0b01000110#8, 2#8] = .ok (.pop 2#8, []) := rfl
theorem test_decode_call : decode [0b01010000#8, 1#8] = .ok (.call 1#8, []) := rfl
theorem test_decode_ret : decode [0b00010001#8, 9#8] = .ok (.ret, [9#8]) := rfl
theorem test_decode_jmp : decode [0b01010100#8, 2#8] = .ok (.jmp 2#8, []) := rfl
theorem test_decode_jeq : decode [0b01010101#8, 0#8] = .ok (.jeq 0#8, []) := rfl
theorem test_decode_jne : decode [0b01010110#8, 2#8] = .ok (.jne 2#8, []) := rfl
theorem test_decode_jgt : decode [0b01010111#8, 2#8] = .ok (.jgt 2#8, []) := rfl
theorem test_decode_jlt : decode [0b01011000#8, 2#8] = .ok (.jlt 2#8, []) := rfl
theorem test_decode_jle : decode [0b01011001#8, 2#8] = .ok (.jle 2#8, []) := rfl
theorem test_decode_jge : decode [0b01011010#8, 2#8] = .ok (.jge 2#8, []) := rfl
theorem test_decode_ldi : decode [0b10000010#8, 0#8, 8#8] = .ok (.ldi 0#8 8#8, []) := rfl
theorem test_decode_prn : decode [0b01000111#8, 0#8] = .ok (.prn 0#8, []) := rfl
theorem test_decode_pra : decode [0b01001000#8, 9#8] = .ok (.pra 9#8, []) := rfl
theorem test_decode_hlt : decode [0b00000001#8] = .ok (.hlt, []) := rfl
theorem test_decode_int : decode [0b01010010#8, 0#8] = .ok (.int 0#8, []) := rfl
theorem test_decode_iret : decode [0b00010011#8] = .ok (.iret, []) := rfl

theorem test_decode_missing_operand : decode [0b10000010#8, 0#8] = .error (.missingByte 2) := rfl
theorem test_decode_three_operands : decode [0b11000000#8] = .error (.illegalOpcode 0b11000000#8) := rfl
theorem test_table_word_ldi : decodeTableWord 24 0x080082 = some (.ldi 0#8 8#8) := by decide
theorem test_table_word_short : decodeTableWord 8 0x01A0 = some (.add 0#8 0#8) := by decide

/-! ## The opcode byte's fields (R61, R66), by hand from the row of INT, 0101 0010 -/

theorem test_opcode_fields : opcodeOperandCount 0x52#8 = 1 ∧ opcodeIsAlu 0x52#8 = false ∧
    opcodeMutatesPc 0x52#8 = true ∧ opcodeIdentifier 0x52#8 = 2#4 ∧ opcodeLength 0x52#8 = 2 := by decide
theorem test_opcode_categories : opcodeCategory 0xA0#8 = some .alu ∧ opcodeCategory 0x82#8 = some .twoOperand ∧
    opcodeCategory 0x45#8 = some .oneOperand ∧ opcodeCategory 0x01#8 = some .noOperand ∧
    opcodeCategory 0xC0#8 = none := by decide

/-! ## The ALU (L2-1 to L2-5) -/

theorem test_add_wraps : regOf (exec (.add 0#8 1#8) (two 200#8 100#8)) 0 = some 44#8 := by decide
theorem test_add_checks_operand_a_first :
    endOf (exec (.add 8#8 9#8) (two 1#8 1#8)) = faultedWith (.registerIndex 8#8) 0 := by decide
theorem test_sub_borrow : regOf (exec (.sub 0#8 1#8) (two 3#8 5#8)) 0 = some 254#8 := by decide
theorem test_sub_same_register : regOf (exec (.sub 1#8 1#8) (two 0#8 77#8)) 1 = some 0#8 := by decide
theorem test_mul_low_byte : regOf (exec (.mul 0#8 1#8) (two 255#8 255#8)) 0 = some 1#8 := by decide
theorem test_mul_high_byte_lost : regOf (exec (.mul 0#8 1#8) (two 16#8 16#8)) 0 = some 0#8 := by decide
theorem test_div_floor : regOf (exec (.div 0#8 1#8) (two 17#8 5#8)) 0 = some 3#8 := by decide
theorem test_div_by_zero : endOf (exec (.div 0#8 1#8) (two 10#8 0#8)) = faultedWith .divideByZero 0 ∧
    regOf (exec (.div 0#8 1#8) (two 10#8 0#8)) 0 = some 10#8 := by decide
theorem test_mod_remainder : regOf (exec (.mod 0#8 1#8) (two 255#8 16#8)) 0 = some 15#8 := by decide
theorem test_div_index_before_zero :
    endOf (exec (.div 9#8 1#8) (two 1#8 0#8)) = faultedWith (.registerIndex 9#8) 0 := by decide
theorem test_inc_wraps : regOf (exec (.inc 0#8) (two 255#8 0#8)) 0 = some 0#8 := by decide
theorem test_inc_length : pcOf (exec (.inc 0#8) (two 1#8 0#8)) = some 2 := by decide
theorem test_dec_wraps : regOf (exec (.dec 0#8) (two 0#8 0#8)) 0 = some 255#8 := by decide
theorem test_not : regOf (exec (.not 0#8) (two 0xF0#8 0#8)) 0 = some 0x0F#8 := by decide
theorem test_and : regOf (exec (.and 0#8 1#8) (two 0xCC#8 0xAA#8)) 0 = some 0x88#8 := by decide
theorem test_or : regOf (exec (.or 0#8 1#8) (two 0xCC#8 0xAA#8)) 0 = some 0xEE#8 := by decide
theorem test_xor : regOf (exec (.xor 0#8 1#8) (two 0xCC#8 0xAA#8)) 0 = some 0x66#8 := by decide
theorem test_shl_by_itself : regOf (exec (.shl 0#8 0#8) (two 3#8 0#8)) 0 = some 24#8 := by decide
theorem test_shl_count_unmasked : regOf (exec (.shl 0#8 1#8) (two 1#8 8#8)) 0 = some 0#8 := by decide
theorem test_shr_logical : regOf (exec (.shr 0#8 1#8) (two 0x80#8 7#8)) 0 = some 1#8 := by decide
theorem test_shr_count_unmasked : regOf (exec (.shr 0#8 1#8) (two 0xFF#8 8#8)) 0 = some 0#8 := by decide
theorem test_cmp_is_unsigned : regOf (exec (.cmp 0#8 1#8) (two 0#8 255#8)) 4 = some 4#8 := by decide
theorem test_cmp_of_old_flags : regOf (exec (.cmp 4#8 0#8) (flags 2#8 1#8)) 4 = some 2#8 := by decide
theorem test_add_writes_flags_through_r4 : regOf (exec (.add 4#8 0#8) (flags 1#8 1#8)) 4 = some 2#8 := by decide

/-! ## Stack and control transfer (L2-7 to L2-10) -/

theorem test_push_r7 : let o := exec (.push 7#8) (at_ 0 none none none none none (some 100#8) [])
    regOf o 7 = some 99#8 ∧ byteOf o 99 = some 99#8 := by decide
theorem test_push_wraps : let o := exec (.push 0#8) (at_ 0 (some 7#8) none none none none (some 0#8) [])
    regOf o 7 = some 255#8 ∧ byteOf o 255 = some 7#8 := by decide
theorem test_pop : let o := exec (.pop 2#8) (at_ 0 none none none none none (some 255#8) [(255, 9#8)])
    regOf o 2 = some 9#8 ∧ regOf o 7 = some 0#8 ∧ byteOf o 255 = some 9#8 := by decide
theorem test_pop_r7 :
    regOf (exec (.pop 7#8) (at_ 0 none none none none none (some 99#8) [(99, 99#8)])) 7 = some 100#8 := by decide
theorem test_call : let o := exec (.call 1#8) (at_ 3 none (some 10#8) none none none (some 255#8) [])
    regOf o 7 = some 254#8 ∧ byteOf o 254 = some 5#8 ∧ pcOf o = some 10 := by decide
theorem test_call_r7 : let o := exec (.call 7#8) (two 0#8 0#8)
    pcOf o = some 254 ∧ byteOf o 254 = some 2#8 := by decide
theorem test_ret : let o := exec .ret (at_ 17 none none none none none (some 254#8) [(254, 5#8)])
    pcOf o = some 5 ∧ regOf o 7 = some 255#8 := by decide
theorem test_jmp : pcOf (exec (.jmp 2#8) (at_ 0 none none (some 20#8) none none (some 255#8) [])) = some 20 := by decide
theorem test_jeq : pcOf (exec (.jeq 0#8) (flags 3#8 30#8)) = some 30 ∧
    pcOf (exec (.jeq 9#8) (flags 4#8 30#8)) = some 14 := by decide
theorem test_jeq_bad_operand_taken :
    endOf (exec (.jeq 9#8) (flags 1#8 30#8)) = faultedWith (.registerIndex 9#8) 12 := by decide
theorem test_jne : pcOf (exec (.jne 0#8) (flags 0xF8#8 30#8)) = some 30 ∧
    pcOf (exec (.jne 0#8) (flags 1#8 30#8)) = some 14 := by decide
theorem test_jgt : pcOf (exec (.jgt 0#8) (flags 2#8 30#8)) = some 30 ∧
    pcOf (exec (.jgt 0#8) (flags 1#8 30#8)) = some 14 := by decide
theorem test_jge : pcOf (exec (.jge 0#8) (flags 1#8 30#8)) = some 30 ∧
    pcOf (exec (.jge 0#8) (flags 4#8 30#8)) = some 14 := by decide
theorem test_jlt : pcOf (exec (.jlt 0#8) (flags 4#8 30#8)) = some 30 ∧
    pcOf (exec (.jlt 0#8) (flags 3#8 30#8)) = some 14 := by decide
theorem test_jle : pcOf (exec (.jle 0#8) (flags 4#8 30#8)) = some 30 ∧
    pcOf (exec (.jle 0#8) (flags 2#8 30#8)) = some 14 := by decide
theorem test_jump_on_unwritten_flags :
    endOf (exec (.jle 0#8) (two 1#8 1#8)) = faultedWith (.uninitialisedRegister 4#8) 0 := by decide

/-! ## Load-immediate, output and system (L2-11) -/

theorem test_ldi : regOf (exec (.ldi 4#8 2#8) State.reset) 4 = some 2#8 ∧
    pcOf (exec (.ldi 0#8 255#8) State.reset) = some 3 := by decide
theorem test_prn : endOf (exec (.prn 0#8) (two 255#8 0#8)) = some (.running, [.prn 255#8]) := by decide
theorem test_pra : let o := exec (.pra 9#8) (at_ 4 none none none none none none [])
    endOf o = some (.running, [.unimplemented .pra 4]) ∧ pcOf o = some 6 := by decide
theorem test_int : let o := exec (.int 0#8) (at_ 4 none none none none none none [])
    endOf o = some (.running, [.unimplemented .int 4]) ∧ pcOf o = some 6 := by decide
theorem test_iret : let o := exec .iret (at_ 9 none none none none none (some 255#8) [])
    endOf o = some (.running, [.unimplemented .iret 9]) ∧ pcOf o = some 10 ∧ regOf o 7 = some 255#8 := by decide
theorem test_hlt : let o := exec .hlt (at_ 11 none none none none none (some 255#8) [])
    endOf o = some (.halted, []) ∧ pcOf o = some 11 := by decide

/-! ## The cycle (L2-12, L2-13) -/

theorem test_step_zeroed_memory : endOf (step State.reset) = faultedWith (.illegalOpcode 0#8) 0 := by decide
theorem test_step_operand_past_the_end :
    endOf (step (at_ 254 none none none none none none [(254, 0x82#8)])) = faultedWith (.fetchOutOfRange 256) 254 := by
  decide
theorem test_step_opcode_past_the_end :
    endOf (step (at_ 256 none none none none none none [])) = faultedWith (.fetchOutOfRange 256) 256 := by decide
theorem test_step_last_bytes :
    pcOf (step (at_ 253 none none none none none none [(253, 0x82#8), (255, 8#8)])) = some 256 := by decide
theorem test_step_limit_reached : pcOf (stepWith { ls8Config with stepLimit := some 0 } State.reset) = some 0 ∧
    endOf (stepWith { ls8Config with stepLimit := some 0 } State.reset) = some (.stepLimitReached, []) := by decide
theorem test_no_step_when_halted : step { State.reset with run := .halted } = .fault (.notRunning .halted) := rfl
theorem test_fetch_word_runs_first : regOf (step (State.reset.withFetchWord 24 0x080082)) 0 = some 8#8 := by decide

/-! ## Text forms (R36, R72, R73) -/

theorem test_prn_text : Event.text (.prn 17#8) = some "17\n" := by decide
theorem test_asm_text : asmText (.ldi 0#8 8#8) = some "LDI R0,8" ∧ asmText (.add 0#8 1#8) = some "ADD R0,R1" ∧
    asmText (.prn 0#8) = some "PRN R0" ∧ asmText .hlt = some "HLT" ∧ asmText (.prn 8#8) = none := by decide
theorem test_image_line : parseLine "10000010  # LDI R0,8\n".toList = .byte 0x82#8 ∧
    parseLine "  # LDI".toList = .skipped ∧ parseLine "1000".toList = .malformed := by decide
theorem test_image_line_comment_after_digits : parseLine "00000001#HLT".toList = .byte 0x01#8 ∧
    parseLine "00000001 \n".toList = .byte 0x01#8 ∧ parseLine "\n".toList = .skipped := by decide

/-! ## Witnesses: states and operands that meet the hypotheses of the statements, clause by clause -/

theorem witness_holds : (two 8#8 9#8).Holds 0#8 8#8 ∧ (two 8#8 9#8).Holds 1#8 9#8 ∧
    (two 8#8 9#8).Holds 7#8 255#8 :=
  ⟨⟨0, rfl, rfl⟩, ⟨1, rfl, rfl⟩, ⟨7, rfl, rfl⟩⟩

theorem witness_readFault : (two 8#8 9#8).ReadFault 8#8 (.registerIndex 8#8) ∧
    (two 8#8 9#8).ReadFault 6#8 (.uninitialisedRegister 6#8) :=
  ⟨.inl ⟨by decide, rfl⟩, .inr ⟨6, rfl, rfl, rfl⟩⟩

theorem witness_ResetWithImage : 256 < (List.replicate 257 0#8).length ∧
    (List.replicate 256 1#8).length ≤ 256 ∧ ([] : List Byte).length ≤ 256 := by
  rw [List.length_replicate, List.length_replicate]
  decide

theorem witness_RegisterFileAccess : 8 ≤ (8#8 : Byte).toNat ∧ (7#8 : Byte).toNat = (7 : Fin 8).val ∧
    (0#8 : Byte).toNat = (0 : Fin 8).val ∧ State.reset.regs[(0 : Fin 8)] = none ∧
    State.reset.regs[(7 : Fin 8)] = some 255#8 := by decide

theorem witness_RegisterReadsBack : writeReg State.reset 0#8 5#8 = .ok (State.reset.setReg 0#8 5#8) := rfl

theorem witness_WrittenStaysWritten :
    stepWith ls8Config State.reset =
      .next (takeFault (beginStep State.reset) (.illegalOpcode 0#8)) ∧ State.reset.regs[(7 : Fin 8)] ≠ none :=
  ⟨rfl, by decide⟩

theorem witness_MemoryReadAfterWrite : Memory.wf [(0, 1#8), (255, 2#8)] = true ∧ 255 < 256 := by decide

theorem witness_CanonicalMemoryIsUnique :
    Memory.wf [(254, 5#8)] = true ∧ ∀ a, Memory.read [(254, 5#8)] a = Memory.read [(254, 5#8)] a :=
  ⟨by decide, fun _ => rfl⟩

/-- FetchSeesPushedByte, and the first law of R143. -/
theorem witness_PushThenPopRestores : (two 8#8 9#8).mem.wf = true ∧ (two 8#8 9#8).Holds 7#8 255#8 ∧
    (two 8#8 9#8).Holds 0#8 8#8 ∧ (0#8 : Byte) ≠ 7#8 :=
  ⟨by decide, ⟨7, rfl, rfl⟩, ⟨0, rfl, rfl⟩, by decide⟩

/-- TwoOperand, Division and OneOperand: both operands written; the first, or only the second, one not readable; a
zero divisor and one that is not zero. -/
theorem witness_alu : (two 8#8 0#8).Holds 0#8 8#8 ∧ (two 8#8 0#8).Holds 1#8 0#8 ∧ (two 8#8 9#8).Holds 1#8 9#8 ∧
    (9#8 : Byte) ≠ 0#8 ∧ (two 8#8 9#8).ReadFault 255#8 (.registerIndex 255#8) ∧
    (two 8#8 9#8).ReadFault 2#8 (.uninitialisedRegister 2#8) :=
  ⟨⟨0, rfl, rfl⟩, ⟨1, rfl, rfl⟩, ⟨1, rfl, rfl⟩, by decide, .inl ⟨by decide, rfl⟩, .inr ⟨2, rfl, rfl, rfl⟩⟩

/-- PushStoresBelowTheTop, PopReadsTheTop, ReturnPopsThePc, with each range of POP's operand. -/
theorem witness_stack : (two 8#8 9#8).Holds 7#8 255#8 ∧ (two 8#8 9#8).Holds 0#8 8#8 ∧
    (two 8#8 9#8).ReadFault 8#8 (.registerIndex 8#8) ∧ (6#8 : Byte).toNat < 7 ∧ (7#8 : Byte).toNat = 7 ∧
    8 ≤ (8#8 : Byte).toNat :=
  ⟨⟨7, rfl, rfl⟩, ⟨0, rfl, rfl⟩, .inl ⟨by decide, rfl⟩, by decide, by decide, by decide⟩

/-- CallPushesReturnAddress at both sides of pc = 254. -/
theorem witness_CallPushesReturnAddress :
    let s := at_ 253 none (some 10#8) none none none (some 255#8) []
    let t := at_ 254 none (some 10#8) none none none (some 255#8) []
    s.pc < 254 ∧ s.Holds 7#8 255#8 ∧ s.Holds 1#8 10#8 ∧ s.ReadFault 0#8 (.uninitialisedRegister 0#8) ∧
      254 ≤ t.pc ∧ t.Holds 7#8 255#8 :=
  ⟨by decide, ⟨7, rfl, rfl⟩, ⟨1, rfl, rfl⟩, .inr ⟨0, rfl, rfl, rfl⟩, by decide, ⟨7, rfl, rfl⟩⟩

/-- JumpGoesToTheRegister and PrintEmitsTheRegister. -/
theorem witness_one_register : (two 8#8 9#8).Holds 1#8 9#8 ∧ (two 8#8 9#8).ReadFault 9#8 (.registerIndex 9#8) :=
  ⟨⟨1, rfl, rfl⟩, .inl ⟨by decide, rfl⟩⟩

/-- ConditionalJump: FL unwritten; not taken; taken with a readable and an unreadable target, for JEQ. -/
theorem witness_ConditionalJumps : (two 8#8 9#8).regs[4] = none ∧ (flags 4#8 30#8).regs[4] = some 4#8 ∧
    (4#8 : Byte).getLsbD 0 = false ∧ (flags 1#8 30#8).regs[4] = some 1#8 ∧ (1#8 : Byte).getLsbD 0 = true ∧
    (flags 1#8 30#8).Holds 0#8 30#8 ∧ (flags 1#8 30#8).ReadFault 9#8 (.registerIndex 9#8) :=
  ⟨rfl, rfl, by decide, rfl, by decide, ⟨0, rfl, rfl⟩, .inl ⟨by decide, rfl⟩⟩

theorem witness_CompareThenJump : (two 8#8 9#8).Holds 0#8 8#8 ∧ (two 8#8 9#8).Holds 1#8 9#8 ∧
    ∃ t, exec (.cmp 0#8 1#8) (two 8#8 9#8) = .next t ∧ t.Holds 0#8 8#8 :=
  ⟨⟨0, rfl, rfl⟩, ⟨1, rfl, rfl⟩, _, rfl, ⟨0, rfl, rfl⟩⟩

/-- CallThenReturn: the state CALL leaves, with only the pc moved on, meets the premises on the later state. -/
theorem witness_CallThenReturn : (two 8#8 9#8).mem.wf = true ∧ (two 8#8 9#8).pc < 254 ∧
    (two 8#8 9#8).Holds 7#8 255#8 ∧ (two 8#8 9#8).Holds 1#8 9#8 ∧
    ∃ t, exec (.call 1#8) (two 8#8 9#8) = .next t ∧
      ({ t with pc := 40 } : State).regs[7] = t.regs[7] ∧ ({ t with pc := 40 } : State).mem.read 254 = t.mem.read 254 :=
  ⟨by decide, by decide, ⟨7, rfl, rfl⟩, ⟨1, rfl, rfl⟩, _, rfl, rfl, rfl⟩

theorem witness_LoadImmediate : (7#8 : Byte).toNat < 8 ∧ 8 ≤ (8#8 : Byte).toNat := by decide

theorem witness_HaltStops : exec .hlt State.reset = .next { State.reset with run := .halted } := rfl

/-- RegisterFrame, UnnamedRegistersDoNotMatter: IM is neither read nor written by ADD R0,R1. -/
theorem witness_frames : (∃ t, exec (.add 0#8 1#8) (two 8#8 9#8) = .next t) ∧
    ∀ w ∈ (Instr.add 0#8 1#8).reads ++ (Instr.add 0#8 1#8).writes, w.toNat ≠ (5 : Fin 8).val :=
  ⟨exec_next _ _, by decide⟩

/-- MemoryFrame: both clauses, at the byte beside the one PUSH stores. -/
theorem witness_MemoryFrame : (∃ t, exec (.push 0#8) (two 8#8 9#8) = .next t) ∧ (two 8#8 9#8).Holds 7#8 255#8 ∧
    253 ≠ (255#8 - 1#8 : Byte).toNat ∧ ∀ a, Instr.add 0#8 1#8 ≠ .push a ∧ Instr.add 0#8 1#8 ≠ .call a :=
  ⟨exec_next _ _, ⟨7, rfl, rfl⟩, by decide, fun _ => ⟨by simp, by simp⟩⟩

/-- ControlFrame: both of its pc clauses, for HLT, ADD and JMP. -/
theorem witness_ControlFrame : (∃ t, exec .hlt (two 8#8 9#8) = .next t) ∧
    Mnemonic.setsPc .hlt = false ∧ Mnemonic.setsPc .add = false ∧ Mnemonic.setsPc .jmp = true :=
  ⟨exec_next _ _, by decide⟩

theorem witness_FaultsOfEachInstruction : (two 8#8 0#8).Written 7#8 ∧ (two 8#8 0#8).run = .running ∧
    ∃ t, exec (.div 0#8 1#8) (two 8#8 0#8) = .next t ∧ t.run = .faulted .divideByZero :=
  ⟨⟨255#8, 7, rfl, rfl⟩, rfl, _, rfl, rfl⟩

/-- StepRunsTheInstructionAtPc at the last address an LDI fits. -/
theorem witness_StepRunsTheInstructionAtPc :
    let s := at_ 253 none none none none none none [(253, 0x82#8), (255, 8#8)]
    s.run = .running ∧ s.pc + (Instr.ldi 0#8 8#8).length ≤ 256 ∧
      ∀ k, (h : k < (encode (.ldi 0#8 8#8)).length) → s.mem.read (s.pc + k) = (encode (.ldi 0#8 8#8))[k] := by
  decide

/-- FetchDecodeOperandFetch: each of its clauses, at the boundaries of the address space. -/
theorem witness_FetchDecodeOperandFetch :
    255 < (at_ 256 none none none none none none []).pc ∧
    (let s := at_ 255 none none none none none none []
     s.pc ≤ 255 ∧ ∀ m : Mnemonic, m.ls8Opcode ≠ s.mem.read s.pc) ∧
    (let s := at_ 255 none none none none none none [(255, 0x54#8)]
     Mnemonic.ls8Opcode .jmp = s.mem.read s.pc ∧ 255 < s.pc + opcodeOperandCount (s.mem.read s.pc)) ∧
    (let s := at_ 254 none none none none none none [(254, 0x54#8)]
     Mnemonic.ls8Opcode .jmp = s.mem.read s.pc ∧ s.pc + opcodeOperandCount (s.mem.read s.pc) ≤ 255) := by
  refine ⟨by decide, ⟨by decide, fun m => ?_⟩, by decide, by decide⟩
  cases m <;> decide

theorem witness_StepsExactlyWhileRunning : State.reset.run = .running ∧
    ({ State.reset with run := .halted } : State).run ≠ .running := by decide

/-- StepLimit: the limit at, above and not at all, for a state that has begun 2 steps. -/
theorem witness_StepLimit : ({ ls8Config with stepLimit := some 2 } : Config).stepLimit = some 2 ∧
    2 ≤ ({ State.reset with steps := 2 } : State).steps ∧ ({ State.reset with steps := 2 } : State).steps < 3 ∧
    ls8Config.stepLimit = none ∧ ∃ t, stepWith ls8Config State.reset = .next t :=
  ⟨rfl, by decide, by decide, rfl, _, rfl⟩

theorem witness_FaultIsPrecise : ∃ t, stepWith ls8Config State.reset = .next t ∧
    t.run = .faulted (.illegalOpcode 0#8) := ⟨_, rfl, rfl⟩

/-- HaltedOnlyByHalt, with the halting step; StepsAndOutputOnlyGrow, with a step and with one the limit stops. -/
theorem witness_HaltedOnlyByHalt :
    (∃ t, step (State.reset.withFetchWord 8 0x01) = .next t ∧ t.run = .halted) ∧
    ∃ t, stepWith { ls8Config with stepLimit := some 0 } State.reset = .next t ∧ t.run = .stepLimitReached :=
  ⟨⟨_, rfl, rfl⟩, _, rfl, rfl⟩

theorem witness_StoredWordRunsNext : State.reset.mem.wf = true ∧ State.reset.pc ≤ 253 ∧
    decodeTableWord 24 0x080082 = some (.ldi 0#8 8#8) := by decide

theorem witness_BootMeetsInvariant : State.boot [] = some State.reset := by decide

/-- StepKeepsInvariant: the state after reset meets the invariant, and a step goes on from it. -/
theorem witness_StepKeepsInvariant : State.reset.Inv ∧ ∃ t, step State.reset = .next t :=
  ⟨{ mem_wf := rfl
     sp_written := ⟨255#8, 7, rfl, rfl⟩
     pc_le := by decide
     out_le := by decide
     no_limit := by decide
     halted_at_hlt := fun h => by cases h
     faulted_reported := fun _ h => by cases h
     no_early_diag := fun _ e h => by cases h }, _, rfl⟩

/-- RunsEndHaltedOrFaulted: one step from the empty image ends the run. -/
theorem witness_RunsEndHaltedOrFaulted : ∃ s, Reachable ls8Config [] s ∧ ∀ t, step s ≠ .next t :=
  ⟨_, .step (.boot (s := State.reset) rfl) rfl, fun _ h => by cases h⟩

/-- BinaryLineIsRead: blanks of every kind, and none. -/
theorem witness_BinaryLineIsRead : (∀ c ∈ [' ', '\t', '\r', '\n'], isBlankChar c = true) ∧
    ∀ c ∈ ([] : List Char), isBlankChar c = true := by simp [isBlankChar]

theorem witness_DecodeOfEncode : ls8Default.wellFormed = true ∧
    (Instr.mod 7#8 255#8).wellFormed ls8Default = true := by decide

theorem witness_LengthFromFirstByte : decodeWith ls8Default [0x65#8, 0#8] = .ok (.inc 0#8, []) ∧
    (0xC0#8 : Byte).toNat / 64 = 3 ∧ (0xFF#8 : Byte).toNat / 64 = 3 := ⟨rfl, by decide, by decide⟩

end Sys2Proof.Tests
end

/-! ## Family 00_scope: the register file, and the control frame of an instruction -/

namespace Sys2Proof.Machine

/-- A write through an operand that names register r replaces slot r of the register file (R24). -/
theorem setReg_eq_set {i : Byte} {r : Fin registerCount} (h : i.toNat = r.val) (s : State) (v : Byte) :
    s.setReg i v = { s with regs := s.regs.set r (some v) } := by
  simp only [State.setReg, h, State.mk.injEq, and_true]
  ext1 j hj
  rw [Vector.getElem_setIfInBounds, Vector.getElem_set]

/-- What an effect that completes does outside the registers and memory, for each of its shapes (R35, R36, R86). -/
theorem EffectShape.controlFrame {i : Instr} {s t : State} (h : EffectShape i s t) :
    t.steps = s.steps ∧ t.out = s.out ++ (i.event s).toList ∧
      t.run = (if i = .hlt then .halted else s.run) ∧
      (i.mnemonic.setsPc = false → t.pc = if i = .hlt then s.pc else s.pc + i.length) ∧
      (i.mnemonic.setsPc = true → t.pc ≤ 255 ∨ t.pc = s.pc + i.length) := by
  cases h with
  | writes d v hd hr hw hp hh he => simp [hp, hh, he]
  | jumps n hn hw hp he =>
    have hh : i ≠ .hlt := by rintro rfl; cases hp
    simpa [hp, hh, he] using hn
  | emits e hw hp hh he => simp [hp, hh, he]
  | pushes a sp v hi hs | pops a v sp w hi ha hs =>
    subst hi
    simp [Instr.event, Instr.mnemonic, Mnemonic.setsPc]
  | calls a sp v target hi hs | returns w target hi =>
    have ht : target.toNat ≤ 255 := Nat.le_of_lt_succ target.isLt
    subst hi
    simp [Instr.event, Instr.mnemonic, Mnemonic.setsPc, ht]
  | halts hi =>
    subst hi
    simp [Instr.event, Instr.mnemonic, Mnemonic.setsPc]

/-- Settles O30: an instruction that raises nothing leaves one of the shapes of `EffectShape`, each of which has the
control frame. -/
theorem controlFrame : Obligations.ControlFrame := by
  intro i s t h
  rcases exec_cases h with hok | ⟨f, -, ht⟩
  · exact .inr (effectOf_shape hok).controlFrame
  · exact .inl ⟨f, ht⟩

/-- Settles O2: reads through what the register file holds (`readFault_iff`, `holds_iff`), writes through
`setReg_eq_set`. -/
theorem registerFileAccess : Obligations.RegisterFileAccess := by
  intro s i v
  refine ⟨fun hi => ⟨readFault_iff.mp (.inl ⟨hi, rfl⟩), writeReg_of_ge hi⟩, fun r hr => ?_⟩
  have hset := setReg_eq_set hr s v
  have hwrite : writeReg s i v = .ok (s.setReg i v) := writeReg_of_lt (hr ▸ r.isLt)
  exact ⟨fun hu => readFault_iff.mp (.inr ⟨r, hr, hu, rfl⟩), fun w hw => holds_iff.mp ⟨r, hr, hw⟩,
    hwrite.trans (congrArg _ hset), hset⟩

end Sys2Proof.Machine

/-! ## Family 10_state: registers, memory and the run state across a step, and the invariant -/

namespace Sys2Proof.Machine

/-! ### One register write, seen through the register file -/

/-- What each register holds after one is written. -/
theorem getElem_setReg (s : State) (i v : Byte) (r : Fin registerCount) :
    (s.setReg i v).regs[r] = if i.toNat = r.val then some v else s.regs[r] := by
  simp [State.setReg, Vector.getElem_setIfInBounds]

theorem getElem_setReg_other {s : State} {i : Byte} {r : Fin registerCount} (h : i.toNat ≠ r.val) (v : Byte) :
    (s.setReg i v).regs[r] = s.regs[r] := by
  rw [getElem_setReg, if_neg h]

/-- A register write leaves every written register written (R22). -/
theorem setReg_keeps_written {s : State} {r : Fin registerCount} (h : s.regs[r] ≠ none) (i v : Byte) :
    (s.setReg i v).regs[r] ≠ none := by
  rw [getElem_setReg]
  split
  · simp
  · exact h

/-- SP is written exactly when slot 7 of the register file is. -/
theorem written_regSP_iff (s : State) : s.Written regSP ↔ s.regs[(7 : Fin registerCount)] ≠ none := by
  constructor
  · rintro ⟨v, r, hr, h⟩
    obtain rfl : r = 7 := Fin.ext hr.symm
    simp [h]
  · intro h
    obtain ⟨v, hv⟩ := Option.ne_none_iff_exists'.mp h
    exact ⟨v, 7, rfl, hv⟩

/-! ### What each shape of an effect keeps -/

/-- No effect that completes makes a written register unwritten (R22). -/
theorem EffectShape.keeps_written {i : Instr} {s t : State} (h : EffectShape i s t) {r : Fin registerCount}
    (hr : s.regs[r] ≠ none) : t.regs[r] ≠ none := by
  cases h with
  | writes d v | pushes a sp v | calls a sp v target | returns w target => exact setReg_keeps_written hr _ _
  | pops a v sp w => exact setReg_keeps_written (setReg_keeps_written hr _ _) _ _
  | jumps | emits | halts => exact hr

/-- An effect that completes writes no register outside `Instr.writes`. -/
theorem EffectShape.frame {i : Instr} {s t : State} (h : EffectShape i s t) {r : Fin registerCount}
    (hr : ∀ w ∈ i.writes, w.toNat ≠ r.val) : t.regs[r] = s.regs[r] := by
  cases h with
  | writes d v hd => exact getElem_setReg_other (hr d hd) v
  | pushes a sp v hi | calls a sp v target hi | returns w target hi =>
    subst hi
    exact getElem_setReg_other (hr regSP (by simp [Instr.writes])) _
  | pops a v sp w hi =>
    subst hi
    exact (getElem_setReg_other (hr regSP (by simp [Instr.writes])) w).trans
      (getElem_setReg_other (hr a (by simp [Instr.writes])) v)
  | jumps | emits | halts => rfl

/-- An effect that completes keeps the canonical form of memory: the stack stores only at byte addresses (R42). -/
theorem EffectShape.keeps_wf {i : Instr} {s t : State} (h : EffectShape i s t) (hm : s.mem.wf = true) :
    t.mem.wf = true := by
  cases h with
  | pushes a sp v | calls a sp v target => exact Memory.wf_write hm (byte_lt_memorySize _) v
  | writes | jumps | emits | pops | returns | halts => exact hm

/-- An effect that completes in a running core leaves it running or, for HLT, halts it. -/
theorem EffectShape.run_of_running {i : Instr} {s t : State} (h : EffectShape i s t) (hs : s.run = .running) :
    t.run = if i = .hlt then .halted else .running := by
  obtain ⟨-, -, hrun, -⟩ := h.controlFrame
  rw [hrun, hs]

/-- An effect that completes leaves pc at a byte address or at most one instruction's length on (R86, R130). -/
theorem EffectShape.pc_le {i : Instr} {s t : State} (h : EffectShape i s t) :
    t.pc ≤ 255 ∨ t.pc ≤ s.pc + i.length := by
  obtain ⟨-, -, -, hseq, hjump⟩ := h.controlFrame
  cases hp : i.mnemonic.setsPc with
  | true => exact (hjump hp).imp_right Nat.le_of_eq
  | false =>
    rw [hseq hp]
    split <;> omega

/-- The event of an instruction that completes reports no fault. -/
theorem event_not_isDiag {i : Instr} {s : State} {e : Event} (h : i.event s = some e) : e.isDiag = false := by
  cases i with
  | prn a =>
    simp only [Instr.event] at h
    split at h <;> cases h
    rfl
  | _ => cases h <;> rfl

/-! ### What a step can do -/

/-- All that a step under any parameters can do, by the shape of the state it leaves: stop at the step limit; take a
fault, of the fetch or of the instruction fetched; complete that instruction. -/
theorem stepWith_shape {cfg : Config} {s t : State} (h : stepWith cfg s = .next t) :
    (limitReached cfg s = true ∧ t = { s with run := .stepLimitReached }) ∨
      (∃ f, t = takeFault (beginStep s) f) ∨
      ∃ i, fetch cfg s = .ok i ∧ EffectShape i (beginStep s) t := by
  rcases stepWith_cases h with hl | ⟨-, ⟨f, -, ht⟩ | ⟨i, hi, he⟩⟩
  · exact .inl hl
  · exact .inr (.inl ⟨f, ht⟩)
  · rcases exec_cases he with hok | ⟨f, -, ht⟩
    · exact .inr (.inr ⟨i, hi, effectOf_shape hok⟩)
    · exact .inr (.inl ⟨f, ht⟩)

/-- The same under the default parameters, which set no step limit. -/
theorem step_shape {s t : State} (h : step s = .next t) :
    (∃ f, t = takeFault (beginStep s) f) ∨ ∃ i, fetch ls8Config s = .ok i ∧ EffectShape i (beginStep s) t := by
  rcases stepWith_shape h with ⟨hl, -⟩ | hs
  · cases hl
  · exact hs

/-- Settles O4, by the shapes of a step. -/
theorem writtenStaysWritten : Obligations.WrittenStaysWritten := by
  intro cfg s t h r hr
  rcases stepWith_shape h with ⟨-, rfl⟩ | ⟨f, rfl⟩ | ⟨i, -, hs⟩
  · exact hr
  · exact hr
  · exact hs.keeps_written hr

/-- Settles O40: the output grows by nothing at the step limit, by the `Diag` of a fault, and by the event of an
instruction that completes. -/
theorem stepsAndOutputOnlyGrow : Obligations.StepsAndOutputOnlyGrow := by
  intro cfg s t h
  have hr := running_of_stepWith h
  rcases stepWith_shape h with ⟨-, rfl⟩ | ⟨f, rfl⟩ | ⟨i, -, hs⟩
  · exact ⟨fun hn => absurd rfl hn, fun _ => rfl, [], by simp⟩
  · exact ⟨fun _ => rfl, nofun, [.diag f s.pc], rfl, Nat.le_refl 1⟩
  · obtain ⟨hsteps, hout, -⟩ := hs.controlFrame
    have hrun : t.run ≠ .stepLimitReached := by
      rw [hs.run_of_running hr]
      split <;> simp
    refine ⟨fun _ => hsteps, fun hl => absurd hl hrun, _, hout, ?_⟩
    cases i.event (beginStep s) <;> simp

/-! ### The HLT byte -/

/-- A fetch that answers under the default map has read the instruction's opcode byte at pc. -/
theorem opcode_of_fetch {s : State} {i : Instr} (h : fetch ls8Config s = .ok i) :
    s.mem.read s.pc = i.mnemonic.ls8Opcode := by
  obtain ⟨op, rest, hl, hw, hpc⟩ := fetch_eq_ok h
  have hlen : 1 ≤ i.length := Nat.le_add_right 1 _
  have hread := getElem?_fetchWindow (s := s) (k := 0) (by omega)
  rw [hw] at hread
  rw [← ls8_lookup_eq_some hl]
  exact (Option.some.inj hread).symm

/-- The core fetches HLT exactly where an HLT byte stands below address 256 (R84, R153). -/
theorem fetch_eq_hlt_iff (s : State) :
    fetch ls8Config s = .ok .hlt ↔ s.pc ≤ 255 ∧ s.mem.read s.pc = 0x01#8 := by
  constructor
  · intro h
    obtain ⟨-, -, -, -, hpc⟩ := fetch_eq_ok h
    exact ⟨Nat.le_of_lt_succ hpc, opcode_of_fetch h⟩
  · rintro ⟨hpc, hread⟩
    have hlen : 0 < min 3 (memorySize - s.pc) := by
      rw [memorySize]
      omega
    have hhead := getElem?_fetchWindow hlen
    obtain ⟨op, rest, hw⟩ := List.exists_cons_of_length_pos (Nat.lt_of_lt_of_eq hlen (fetchWindow_length s).symm)
    rw [hw] at hhead
    obtain rfl : op = Mnemonic.ls8Opcode .hlt := (Option.some.inj hhead).trans hread
    have hd : decodeWith ls8Default (fetchWindow s) = .ok (.hlt, rest) := by
      rw [hw, decodeWith_cons, ls8_lookup]
      rfl
    simp only [fetch, ls8Config, hd]

/-- Settles O39: the step that fetches HLT is written out; every other step faults or leaves the core running. -/
theorem haltedOnlyByHalt : Obligations.HaltedOnlyByHalt := by
  intro s t h
  have hr := running_of_stepWith h
  rw [← fetch_eq_hlt_iff]
  by_cases hf : fetch ls8Config s = .ok .hlt
  · have ht : t = { s with run := .halted, steps := s.steps + 1 } := by
      rw [step_of_running hr, hf] at h
      cases h
      rfl
    exact ⟨iff_of_true (by rw [ht]) hf, fun _ => ht⟩
  · have hrun : t.run ≠ .halted := by
      rcases step_shape h with ⟨f, rfl⟩ | ⟨i, hi, hs⟩
      · simp
      · have hne : i ≠ .hlt := fun e => hf (e ▸ hi)
        simp [hs.run_of_running hr, hne]
    exact ⟨iff_of_false hrun hf, fun hh => absurd hh hrun⟩

/-! ### The invariant -/

/-- Settles O42: no hypothesis of a clause of the invariant that speaks of an end of the run holds at reset. -/
theorem resetMeetsInvariant : Obligations.ResetMeetsInvariant where
  mem_wf := rfl
  sp_written := (written_regSP_iff _).mpr nofun
  pc_le := Nat.zero_le _
  out_le := Nat.le_refl 0
  no_limit := nofun
  halted_at_hlt := nofun
  faulted_reported := nofun
  no_early_diag := nofun

/-- A running core that meets the invariant has reported no fault. -/
theorem State.Inv.no_diag_of_running {s : State} (hi : s.Inv) (hr : s.run = .running) :
    ∀ e ∈ s.out, e.isDiag = false :=
  hi.no_early_diag (by simp [hr])

/-- Taking a fault in a step keeps the invariant: it changes the run state, the step counter and the output alone. -/
theorem State.Inv.takeFault_beginStep {s : State} (hi : s.Inv) (hr : s.run = .running) (f : CoreFault) :
    (takeFault (beginStep s) f).Inv where
  mem_wf := hi.mem_wf
  sp_written := hi.sp_written
  pc_le := hi.pc_le
  out_le := by simpa using hi.out_le
  no_limit := nofun
  halted_at_hlt := nofun
  faulted_reported := fun g hg => by
    cases hg
    exact ⟨s.out, rfl, hi.no_diag_of_running hr⟩
  no_early_diag := fun h => absurd rfl (h f)

/-- Completing the instruction fetched keeps the invariant. -/
theorem State.Inv.complete_fetched {s t : State} {i : Instr} (hi : s.Inv) (hstep : step s = .next t)
    (hf : fetch ls8Config s = .ok i) (hs : EffectShape i (beginStep s) t) : t.Inv := by
  have hr := running_of_stepWith hstep
  have hrun : t.run = if i = .hlt then .halted else .running := hs.run_of_running hr
  obtain ⟨hsteps, hout, -⟩ := hs.controlFrame
  exact {
    mem_wf := hs.keeps_wf hi.mem_wf
    sp_written := (written_regSP_iff t).mpr (hs.keeps_written ((written_regSP_iff s).mp hi.sp_written))
    pc_le := by
      obtain ⟨-, -, -, -, hfetched⟩ := fetch_eq_ok hf
      exact hs.pc_le.elim (fun h => Nat.le_trans h (by decide)) (fun h => Nat.le_trans h hfetched)
    out_le := by
      have hevent : (i.event (beginStep s)).toList.length ≤ 1 := by cases i.event (beginStep s) <;> simp
      have hle := hi.out_le
      rw [hout, hsteps, List.length_append, beginStep_out, beginStep_steps]
      omega
    no_limit := by
      rw [hrun]
      split <;> simp
    halted_at_hlt := fun hh => by
      obtain ⟨hiff, hstate⟩ := haltedOnlyByHalt s t hstep
      obtain ⟨hpc, hread⟩ := hiff.mp hh
      rw [hstate hh]
      exact ⟨Nat.lt_succ_of_le hpc, hread⟩
    faulted_reported := fun f hfault => by
      rw [hrun] at hfault
      split at hfault <;> cases hfault
    no_early_diag := fun _ e he => by
      rw [hout, List.mem_append, Option.mem_toList] at he
      exact he.elim (hi.no_diag_of_running hr e) event_not_isDiag }

/-- Settles O44: a step takes a fault or completes the instruction fetched, and each keeps the invariant. -/
theorem stepKeepsInvariant : Obligations.StepKeepsInvariant := by
  intro s t hi h
  rcases step_shape h with ⟨f, rfl⟩ | ⟨i, hf, hs⟩
  · exact hi.takeFault_beginStep (running_of_stepWith h) f
  · exact hi.complete_fetched h hf hs

/-! ### Registers and memory -/

/-- Settles O28: a fault changes no register, and an effect that completes has the frame of its shape. -/
theorem registerFrame : Obligations.RegisterFrame := by
  intro i s t h r hr
  rcases exec_cases h with hok | ⟨f, -, rfl⟩
  · exact (effectOf_shape hok).frame hr
  · rfl

/-- Settles O3: a write that answers leaves `State.setReg`. -/
theorem registerReadsBack : Obligations.RegisterReadsBack := by
  intro s t i v h
  rcases writeReg_cases s i v with ⟨hi, hw⟩ | ⟨-, hw⟩
  · obtain rfl : s.setReg i v = t := Except.ok.inj (hw.symm.trans h)
    exact ⟨holds_iff.mpr (readReg_setReg_same hi), fun r hr => getElem_setReg_other (Ne.symm hr) v,
      rfl, rfl, rfl, rfl, rfl⟩
  · rw [hw] at h
    cases h

/-- After reset SP holds 255 and every other register is unwritten (R38). -/
theorem reset_regs (r : Fin registerCount) : State.reset.regs[r] = if r.val = 7 then some 255#8 else none := by
  revert r
  decide

/-- Settles O1: the image's bytes are read back through `Memory.read_writeBytes`. -/
theorem resetWithImage : Obligations.ResetWithImage := by
  refine ⟨rfl, fun image => ⟨fun hlong => ?_, fun hfits => ?_⟩⟩
  · have hbad : ¬ imageWellFormed image = true := by simpa [imageWellFormed] using hlong
    exact if_neg hbad
  · have hgood : imageWellFormed image = true := by simpa [imageWellFormed] using hfits
    have hread := Memory.read_writeBytes (m := State.reset.mem) (a := 0) rfl (by simpa using hfits)
    refine ⟨_, if_pos hgood, reset_regs, rfl, rfl, rfl, rfl, fun a ha => ?_, fun a ha => ?_⟩
    · simp [hread, ha]
    · rw [hread, if_neg (by omega)]
      rfl

/-- The cells of a canonical memory are the addresses that do not read as unlisted, with the byte each reads as. -/
theorem Memory.mem_iff_read {m : Memory} (hm : m.wf = true) (c : Host.Cell) :
    c ∈ m ↔ m.read c.1 = c.2 ∧ c.2 ≠ Memory.unlisted c.1 := by
  obtain ⟨hsorted, hcells⟩ := (Memory.wf_iff m).mp hm
  clear hm
  induction m with
  | nil => simp [Memory.read, eq_comm]
  | cons d m ih =>
    obtain ⟨hd, hsorted⟩ := List.pairwise_cons.mp hsorted
    have ih := ih hsorted fun e he => hcells e (List.mem_cons_of_mem d he)
    obtain ⟨a, v⟩ := c
    obtain ⟨k, w⟩ := d
    by_cases hk : k = a
    · subst hk
      have hnot : (k, v) ∉ m := fun h => Nat.lt_irrefl k (hd (k, v) h)
      have hw : w ≠ Memory.unlisted k := (hcells (k, w) (by simp)).2
      simp only [List.mem_cons, Prod.mk.injEq, true_and, hnot, or_false, Memory.read, if_true]
      exact ⟨fun e => ⟨e.symm, e ▸ hw⟩, fun h => h.1.symm⟩
    · simp [Memory.read, hk, Ne.symm hk, ih]

/-- Cells at strictly rising addresses are listed once each. -/
theorem Memory.nodup_of_rising {m : Memory} (hm : m.Pairwise fun x y => x.1 < y.1) : m.Nodup :=
  hm.imp fun hlt e => Nat.ne_of_lt hlt (congrArg Prod.fst e)

/-- Memories with the same cells at strictly rising addresses are the same list. -/
theorem Memory.eq_of_same_cells {m n : Memory} (hm : m.Pairwise fun x y => x.1 < y.1)
    (hn : n.Pairwise fun x y => x.1 < y.1) (h : ∀ c, c ∈ m ↔ c ∈ n) : m = n := by
  have hperm : m.Perm n := (List.perm_ext_iff_of_nodup (nodup_of_rising hm) (nodup_of_rising hn)).mpr h
  exact hperm.eq_of_pairwise (fun _ _ _ _ hlt hgt => absurd hlt (Nat.lt_asymm hgt)) hm hn

/-- Settles O6: canonical memories that read alike have the same cells, and rising addresses fix their order. -/
theorem canonicalMemoryIsUnique : Obligations.CanonicalMemoryIsUnique := by
  intro m n hm hn hread
  have hcells : ∀ c, c ∈ m ↔ c ∈ n := fun c => by
    rw [Memory.mem_iff_read hm, Memory.mem_iff_read hn, hread]
  obtain ⟨hsm, -⟩ := (Memory.wf_iff m).mp hm
  obtain ⟨hsn, -⟩ := (Memory.wf_iff n).mp hn
  exact Memory.eq_of_same_cells hsm hsn hcells

/-! ### Changes of the state that an instruction does not see -/

/-- `φ` changes only what an instruction over the registers `rs` neither reads nor decides: those registers, the pc and
memory are as they were, and every update an instruction makes can be done before `φ` as well as after it. -/
structure Unseen (rs : List Byte) (φ : State → State) : Prop where
  read : ∀ w ∈ rs, ∀ s, readReg (φ s) w = readReg s w
  write : ∀ w ∈ rs, w.toNat < registerCount → ∀ s v, (φ s).setReg w v = φ (s.setReg w v)
  pc : ∀ s, (φ s).pc = s.pc
  setPc : ∀ s n, { φ s with pc := n } = φ { s with pc := n }
  mem : ∀ s, (φ s).mem = s.mem
  setMem : ∀ s m, { φ s with mem := m } = φ { s with mem := m }
  stop : ∀ s r, r ≠ .running → { φ s with run := r } = φ { s with run := r }
  emit : ∀ s e, emit (φ s) e = φ (emit s e)

namespace Unseen

variable {rs : List Byte} {φ : State → State} (h : Unseen rs φ)
include h

theorem takeFault_comm (s : State) (f : CoreFault) : takeFault (φ s) f = φ (takeFault s f) := by
  rw [takeFault, h.stop _ _ (by simp), h.emit, h.pc, takeFault]

theorem advance_comm {x y : Except CoreFault State} (i : Instr) (hx : x = φ <$> y) :
    advance i x = φ <$> advance i y := by
  subst hx
  cases y with
  | ok t => exact congrArg Except.ok (by rw [h.pc, h.setPc])
  | error f => rfl

theorem writeReg_comm {a : Byte} (ha : a ∈ rs) (s : State) (v : Byte) :
    writeReg (φ s) a v = φ <$> writeReg s a v := by
  rcases writeReg_cases s a v with ⟨hlt, hw⟩ | ⟨hge, hw⟩
  · rw [hw, writeReg_of_lt hlt, h.write a ha hlt]
    rfl
  · rw [hw, writeReg_of_ge hge]
    rfl

theorem regReg_comm {a b : Byte} (ha : a ∈ rs) (hb : b ∈ rs) (f : Byte → Byte → Except CoreFault Byte) (s : State) :
    regReg f a b (φ s) = φ <$> regReg f a b s := by
  simp only [regReg, map_bind, h.read a ha, h.read b hb, h.writeReg_comm ha]

theorem regOnly_comm {a : Byte} (ha : a ∈ rs) (f : Byte → Byte) (s : State) :
    regOnly f a (φ s) = φ <$> regOnly f a s := by
  simp only [regOnly, map_bind, h.read a ha, h.writeReg_comm ha]

theorem compareOperands_comm {a b : Byte} (ha : a ∈ rs) (hb : b ∈ rs) (hfl : regFL ∈ rs) (s : State) :
    compareOperands a b (φ s) = φ <$> compareOperands a b s := by
  simp only [compareOperands, map_bind, h.read a ha, h.read b hb, h.writeReg_comm hfl]

theorem decSP_comm (hsp : regSP ∈ rs) (s : State) : decSP (φ s) = φ <$> decSP s := by
  simp only [decSP, map_bind, h.read _ hsp, h.writeReg_comm hsp]

theorem incSP_comm (hsp : regSP ∈ rs) (s : State) : incSP (φ s) = φ <$> incSP s := by
  simp only [incSP, map_bind, h.read _ hsp, h.writeReg_comm hsp]

theorem storeTop_comm (hsp : regSP ∈ rs) (s : State) (v : Byte) : storeTop (φ s) v = φ <$> storeTop s v := by
  simp only [storeTop, map_bind, h.read _ hsp, h.mem, h.setMem]
  rfl

theorem loadTop_eq (hsp : regSP ∈ rs) (s : State) : loadTop (φ s) = loadTop s := by
  simp only [loadTop, h.read _ hsp, h.mem]

theorem jumpTo_comm (s : State) (v : Byte) : jumpTo (φ s) v = φ (jumpTo s v) := h.setPc s v.toNat

theorem push_comm {a : Byte} (ha : a ∈ rs) (hsp : regSP ∈ rs) (s : State) : push a (φ s) = φ <$> push a s := by
  simp only [push, map_bind, h.decSP_comm hsp, bind_map_left, h.read a ha, h.storeTop_comm hsp]

theorem pop_comm {a : Byte} (ha : a ∈ rs) (hsp : regSP ∈ rs) (s : State) : pop a (φ s) = φ <$> pop a s := by
  simp only [pop, map_bind, h.loadTop_eq hsp, h.writeReg_comm ha, bind_map_left, h.incSP_comm hsp]

theorem jump_comm {a : Byte} (ha : a ∈ rs) (s : State) : jump a (φ s) = φ <$> jump a s := by
  simp only [jump, map_bind, h.read a ha, h.jumpTo_comm]
  rfl

theorem ret_comm (hsp : regSP ∈ rs) (s : State) : ret (φ s) = φ <$> ret s := by
  simp only [ret, map_bind, h.loadTop_eq hsp, h.jumpTo_comm, h.incSP_comm hsp]

theorem call_comm {a : Byte} (ha : a ∈ rs) (hsp : regSP ∈ rs) (s : State) : call a (φ s) = φ <$> call a s := by
  have hret : returnAddress (φ s) = returnAddress s := congrArg (· + 2) (h.pc s)
  simp only [call, hret]
  split
  · rfl
  · simp only [map_bind, h.decSP_comm hsp, h.storeTop_comm hsp, bind_map_left, h.read a ha, h.jumpTo_comm]
    rfl

theorem condJump_comm {a : Byte} (ha : a ∈ rs) (hfl : regFL ∈ rs) (i : Instr) (cond : Bool → Bool → Bool → Bool)
    (s : State) : condJump i cond a (φ s) = φ <$> condJump i cond a s := by
  simp only [condJump, map_bind, h.read _ hfl]
  refine congrArg _ (funext fun fl => ?_)
  split
  · exact h.jump_comm ha s
  · exact congrArg Except.ok (by rw [h.pc, h.setPc])

theorem print_comm {a : Byte} (ha : a ∈ rs) (s : State) : print a (φ s) = φ <$> print a s := by
  simp only [print, map_bind, h.read a ha, h.emit]
  rfl

theorem stub_comm (m : Stub) (s : State) : stub m (φ s) = φ <$> stub m s := by
  rw [stub, h.emit, h.pc]
  rfl

end Unseen

/-- The effect of an instruction commutes with every change it does not see. -/
theorem Unseen.effectOf_comm {i : Instr} {φ : State → State} (h : Unseen (i.reads ++ i.writes) φ) (s : State) :
    effectOf i (φ s) = φ <$> effectOf i s := by
  cases i with
  | add a b | sub a b | mul a b | div a b | mod a b | and a b | or a b | xor a b | shl a b | shr a b =>
    exact h.advance_comm _ (h.regReg_comm (by simp [Instr.reads]) (by simp [Instr.reads]) _ s)
  | inc a | dec a | not a => exact h.advance_comm _ (h.regOnly_comm (by simp [Instr.reads]) _ s)
  | cmp a b =>
    exact h.advance_comm _ (h.compareOperands_comm (by simp [Instr.reads]) (by simp [Instr.reads])
      (by simp [Instr.writes]) s)
  | push a => exact h.advance_comm _ (h.push_comm (by simp [Instr.reads]) (by simp [Instr.reads]) s)
  | pop a => exact h.advance_comm _ (h.pop_comm (by simp [Instr.writes]) (by simp [Instr.reads]) s)
  | call a => exact h.call_comm (by simp [Instr.reads]) (by simp [Instr.reads]) s
  | ret => exact h.ret_comm (by simp [Instr.reads]) s
  | jmp a => exact h.jump_comm (by simp [Instr.reads]) s
  | jeq a | jne a | jgt a | jlt a | jle a | jge a =>
    simp only [effectOf]
    exact h.condJump_comm (by simp [Instr.reads]) (by simp [Instr.reads]) _ _ s
  | ldi a imm => exact h.advance_comm _ (h.writeReg_comm (by simp [Instr.writes]) s imm)
  | prn a => exact h.advance_comm _ (h.print_comm (by simp [Instr.reads]) s)
  | pra a | int a | iret => exact h.advance_comm _ (h.stub_comm _ s)
  | hlt => exact congrArg Except.ok (h.stop s _ (by simp))

/-- Executing an instruction commutes with every change it does not see. -/
theorem Unseen.exec_comm {i : Instr} {φ : State → State} (h : Unseen (i.reads ++ i.writes) φ) {s t : State}
    (he : exec i s = .next t) : exec i (φ s) = .next (φ t) := by
  rw [exec_eq_complete, h.effectOf_comm]
  rcases exec_cases he with hok | ⟨f, herr, rfl⟩
  · rw [hok]
    rfl
  · rw [herr]
    exact congrArg Host.Outcome.next (h.takeFault_comm s f)

/-! ### A register outside an instruction -/

/-- The content of a register is not seen by an instruction over other registers. -/
theorem withRegister_unseen {rs : List Byte} {r : Fin 8} (hr : ∀ w ∈ rs, w.toNat ≠ r.val) (x : Option Byte) :
    Unseen rs (Rules.withRegister · r x) where
  read w hw s := by
    have hne : r.val ≠ w.toNat := (hr w hw).symm
    simp only [readReg, Rules.withRegister, Vector.getElem?_set_ne _ hne]
  write w hw hlt s v := by
    have hset := setReg_eq_set (i := w) (r := ⟨w.toNat, hlt⟩) rfl
    rw [hset, hset]
    exact congrArg (fun regs => { s with regs := regs }) (Vector.set_comm _ _ (hr w hw).symm)
  pc _ := rfl
  setPc _ _ := rfl
  mem _ := rfl
  setMem _ _ := rfl
  stop _ _ _ := rfl
  emit _ _ := rfl

/-- Settles O31: the content of a register outside the instruction is a change it does not see. -/
theorem unnamedRegistersDoNotMatter : Obligations.UnnamedRegistersDoNotMatter := by
  intro i r hr s x
  obtain ⟨t, ht⟩ := exec_next i s
  rw [(withRegister_unseen hr x).exec_comm ht, ht]
  rfl

/-! ### The run state, the step counter and the output -/

/-- The state put into a run: under a run state where it has none of its own to enter, at a step count, and after the
output so far. -/
def State.inRun (run : RunState) (steps : Nat) (out : List Event) (s : State) : State :=
  { s with run := if s.run = .running then run else s.run, steps := steps, out := out ++ s.out }

/-- No instruction sees the run state, the step counter or the output so far. -/
theorem inRun_unseen (rs : List Byte) (run : RunState) (steps : Nat) (out : List Event) :
    Unseen rs (State.inRun run steps out) where
  read _ _ _ := rfl
  write _ _ _ _ _ := rfl
  pc _ := rfl
  setPc _ _ := rfl
  mem _ := rfl
  setMem _ _ := rfl
  stop s r hr := by simp [State.inRun, hr]
  emit s e := congrArg (fun o => { State.inRun run steps out s with out := o }) (List.append_assoc out s.out [e])

/-- Settles O32: the instruction is run once from a running state with no output, and that run is put into every other
(`State.inRun`). -/
theorem runStateIsNotRead : Obligations.RunStateIsNotRead := by
  intro i s
  obtain ⟨t, ht⟩ := exec_next i { s with run := .running, steps := 0, out := [] }
  refine ⟨t, t.out, if t.run = .running then none else some t.run, fun run steps out => ?_⟩
  have h := (inRun_unseen _ run steps out).exec_comm ht
  simp only [State.inRun, if_true, List.append_nil] at h
  rw [h]
  split <;> rfl

end Sys2Proof.Machine

/-! ## Family 20_memory: reads after writes, stores seen by the fetch, and the memory frame of an instruction -/

namespace Sys2Proof.Machine

/-! ### One memory write -/

/-- What each address of a canonical memory reads as after a write (R41, R42). -/
theorem Memory.read_write {m : Memory} (hm : m.wf = true) (a : Nat) (v : Byte) (b : Nat) :
    (m.write a v).read b = if b = a then v else m.read b := by
  split
  · next h => rw [h, Memory.read_write_same hm]
  · next h => exact Memory.read_write_other m v h

/-- Settles O5: a write inside the address space keeps the canonical form, and `Memory.read_write` gives the reads. -/
theorem memoryReadAfterWrite : Obligations.MemoryReadAfterWrite :=
  fun _ a v hm ha => ⟨Memory.wf_write hm ha v, Memory.read_write hm a v⟩

/-! ### A stored byte, fetched -/

/-- Below address 256 the fetch reads the memory's byte at pc first (R82). -/
theorem head?_fetchWindow {s : State} (h : s.pc < memorySize) : (fetchWindow s).head? = some (s.mem.read s.pc) := by
  rw [List.head?_eq_getElem?]
  exact getElem?_fetchWindow (Nat.lt_min.mpr ⟨by decide, Nat.sub_pos_of_lt h⟩)

/-- The next state of PUSH through written registers (R131). -/
theorem exec_push_ok {s : State} {a sp v : Byte} (hs : readReg s regSP = .ok sp) (ha : readReg s a = .ok v) :
    exec (.push a) s = .next { s.setReg regSP (sp - 1#8) with
      mem := s.mem.write (sp - 1#8).toNat (if a = regSP then sp - 1#8 else v)
      pc := s.pc + (Instr.push a).length } := by
  rw [exec_eq_complete, effectOf, push_ok hs ha]
  rfl

/-- Settles O7: PUSH writes v at the byte address SP - 1, where the fetch then reads it first. -/
theorem fetchSeesPushedByte : Obligations.FetchSeesPushedByte := by
  intro s a v sp hm hs ha hne
  have hsp : a ≠ regSP := hne
  refine ⟨_, exec_push_ok (holds_iff.mp hs) (holds_iff.mp ha), ?_⟩
  rw [head?_fetchWindow (byte_lt_memorySize _), if_neg hsp, Memory.read_write_same hm]

/-! ### What an instruction stores -/

/-- An effect that completes leaves memory as it was, unless it is that of PUSH or CALL, which writes one byte at
SP - 1 (R42, R43). -/
theorem EffectShape.mem_cases {i : Instr} {s t : State} (h : EffectShape i s t) :
    t.mem = s.mem ∨ (∃ a, i = .push a ∨ i = .call a) ∧
      ∃ sp v, readReg s regSP = .ok sp ∧ t.mem = s.mem.write (sp - 1#8).toNat v := by
  cases h with
  | pushes a sp v hi hs => exact .inr ⟨⟨a, .inl hi⟩, sp, v, hs, rfl⟩
  | calls a sp v target hi hs => exact .inr ⟨⟨a, .inr hi⟩, sp, v, hs, rfl⟩
  | writes | jumps | emits | pops | returns | halts => exact .inl rfl

/-- The same of executing an instruction: a fault discards its writes (R172). -/
theorem exec_mem_cases {i : Instr} {s t : State} (h : exec i s = .next t) :
    t.mem = s.mem ∨ (∃ a, i = .push a ∨ i = .call a) ∧
      ∃ sp v, readReg s regSP = .ok sp ∧ t.mem = s.mem.write (sp - 1#8).toNat v := by
  rcases exec_cases h with hok | ⟨f, -, rfl⟩
  · exact (effectOf_shape hok).mem_cases
  · exact .inl rfl

/-- Settles O29: memory is as it was, or PUSH or CALL wrote the one byte at SP - 1. -/
theorem memoryFrame : Obligations.MemoryFrame := by
  intro i s t h
  rcases exec_mem_cases h with hm | ⟨⟨a, hstore⟩, sp, v, hs, hm⟩
  · simp [hm]
  · refine ⟨fun hpush hcall => (hstore.elim (hpush a) (hcall a)).elim, fun sp' hs' x hx => ?_⟩
    obtain rfl : sp = sp' := Except.ok.inj (hs.symm.trans (holds_iff.mp hs'))
    rw [hm, Memory.read_write_other _ _ hx]

end Sys2Proof.Machine

/-! ## Family 30_encoding: the decoder against the encoder, the default opcode map, stored words, and the image text -/

namespace Sys2Proof

/-! ### Looking a row up, by mnemonic and by byte -/

/-- Every opcode byte that a map gives a mnemonic is that of a row of it, which agrees with bits 7:6 (R61, R65). -/
theorem OpcodeMap.opcodeOf_eq_some {m : OpcodeMap} {mn : Mnemonic} {op : Byte} (h : m.opcodeOf mn = some op) :
    ⟨op, mn⟩ ∈ m ∧ mn.operandCount = opcodeOperandCount op := by
  obtain ⟨⟨op', mn'⟩, hfind, rfl⟩ := Option.map_eq_some_iff.mp h
  have hrow := List.find?_some hfind
  simp only [Bool.and_eq_true, beq_iff_eq] at hrow
  obtain ⟨rfl, hcount⟩ := hrow
  exact ⟨List.mem_of_find?_eq_some hfind, hcount⟩

/-- In a map that gives no byte two rows, a row is the one found at its byte (R8). -/
theorem OpcodeMap.find?_of_mem {m : OpcodeMap} (hm : (m.map OpcodeRow.opcode).Nodup) {row : OpcodeRow}
    (hrow : row ∈ m) : m.find? (fun r => r.opcode == row.opcode) = some row := by
  induction m with
  | nil => cases hrow
  | cons r m ih =>
    rw [List.map_cons, List.nodup_cons] at hm
    obtain ⟨hr, hm⟩ := hm
    rcases List.mem_cons.mp hrow with rfl | hrow
    · exact List.find?_cons_of_pos (beq_self_eq_true row.opcode)
    · have hne : r.opcode ≠ row.opcode := fun e => hr (e ▸ List.mem_map_of_mem hrow)
      exact (List.find?_cons_of_neg (by rwa [beq_iff_eq])).trans (ih hm hrow)

/-- Such a row, if it agrees with bits 7:6 of its byte, is looked up as its mnemonic (R65). -/
theorem OpcodeMap.lookup_of_mem {m : OpcodeMap} (hm : m.functional = true) {op : Byte} {mn : Mnemonic}
    (hrow : ⟨op, mn⟩ ∈ m) (hcount : mn.operandCount = opcodeOperandCount op) : m.lookup op = some mn := by
  have hfind := OpcodeMap.find?_of_mem (of_decide_eq_true hm) hrow
  simp only [OpcodeMap.lookup, hfind, hcount, if_true]

/-- The encoder's byte for a mnemonic is looked up as that mnemonic. -/
theorem OpcodeMap.lookup_of_opcodeOf {m : OpcodeMap} (hm : m.wellFormed = true) {mn : Mnemonic} {op : Byte}
    (h : m.opcodeOf mn = some op) : m.lookup op = some mn :=
  have ⟨hrow, hcount⟩ := OpcodeMap.opcodeOf_eq_some h
  OpcodeMap.lookup_of_mem (Bool.and_eq_true_iff.mp hm).1 hrow hcount

/-! ### Decoding an encoded instruction -/

/-- A byte list decodes to an instruction exactly if it is a byte of its mnemonic, then its operands, then the rest
(R60, R65). -/
theorem decodeWith_eq_ok_iff {m : OpcodeMap} {bytes rest : List Byte} {i : Instr} :
    decodeWith m bytes = .ok (i, rest) ↔ ∃ op, m.lookup op = some i.mnemonic ∧ bytes = op :: i.operands ++ rest := by
  refine ⟨decodeWith_eq_ok, ?_⟩
  rintro ⟨op, hl, rfl⟩
  rw [List.cons_append, decodeWith_cons, hl, ← (OpcodeMap.lookup_eq_some hl).2]
  exact decodeOperands_self i rest

/-- Settles O46: the byte the encoder takes is looked up as the instruction's mnemonic, and its operands follow. -/
theorem decodeOfEncode : Obligations.DecodeOfEncode := by
  intro m i rest hm hi
  obtain ⟨op, hop⟩ := Option.isSome_iff_exists.mp hi
  refine ⟨op :: i.operands, by rw [encodeWith, hop, Option.map_some], ?_, ?_⟩
  · rw [Instr.length_eq, List.length_cons, Nat.add_comm]
  · exact decodeWith_eq_ok_iff.mpr ⟨op, OpcodeMap.lookup_of_opcodeOf hm hop, rfl⟩

/-! ### The default opcode map -/

/-- The default map has no byte twice, and each row the layout of R61. -/
theorem ls8Default_wellFormed : ls8Default.wellFormed = true := by
  have hrows : ls8Default.all OpcodeRow.wellFormed = true := by
    simp [ls8Default, Laws.ls8_row_wellFormed]
  have hnodup : ls8Default.functional = true := by decide
  rw [OpcodeMap.wellFormed, hrows, hnodup, Bool.and_self]

/-- Each mnemonic's byte in the default map is the one the table of R67 gives it. -/
theorem ls8_opcodeOf (mn : Mnemonic) : ls8Default.opcodeOf mn = some mn.ls8Opcode := by
  cases mn <;> decide

theorem encodeWith_ls8Default (i : Instr) : encodeWith ls8Default i = some (encode i) := by
  rw [encodeWith, ls8_opcodeOf, Option.map_some, encode]

theorem ls8_lookup_eq_some_iff {op : Byte} {mn : Mnemonic} : ls8Default.lookup op = some mn ↔ op = mn.ls8Opcode :=
  ⟨ls8_lookup_eq_some, fun h => h ▸ ls8_lookup mn⟩

/-- Under the default map the bytes of an instruction are unique (R67). -/
theorem decode_eq_ok_iff {i : Instr} {bytes rest : List Byte} :
    decode bytes = .ok (i, rest) ↔ bytes = encode i ++ rest := by
  rw [decode, decodeWith_eq_ok_iff]
  simp only [ls8_lookup_eq_some_iff, exists_eq_left, encode]

theorem decode_encode (i : Instr) : decode (encode i) = .ok (i, []) :=
  decode_eq_ok_iff.mpr (List.append_nil _).symm

/-- Settles O47. -/
theorem encodeOfDecode : Obligations.EncodeOfDecode := fun i =>
  ⟨by rw [Instr.wellFormed, ls8_opcodeOf, Option.isSome_some], encodeWith_ls8Default i, fun _ _ => decode_eq_ok_iff⟩

theorem Mnemonic.mem_all (mn : Mnemonic) : mn ∈ Mnemonic.all := by
  cases mn <;> decide

/-- The legal opcode bytes are those of the table of R67, each once. -/
theorem legalOpcodeBytes_perm :
    ((List.range 256).filter fun n => !(ls8Default.lookup (BitVec.ofNat 8 n)).isNone).Perm
      (Mnemonic.all.map fun mn => mn.ls8Opcode.toNat) := by
  refine (List.perm_ext_iff_of_nodup (List.nodup_range.filter _) (by decide)).mpr fun n => ?_
  simp only [List.mem_filter, List.mem_range, List.mem_map, Option.not_isNone, Option.isSome_iff_exists,
    ls8_lookup_eq_some_iff]
  constructor
  · rintro ⟨hn, mn, hop⟩
    exact ⟨mn, mn.mem_all, by rw [← hop, BitVec.toNat_ofNat, Nat.mod_eq_of_lt hn]⟩
  · rintro ⟨mn, -, rfl⟩
    exact ⟨mn.ls8Opcode.isLt, mn, by rw [BitVec.ofNat_toNat, BitVec.setWidth_eq]⟩

/-- Settles O49: the 31 bytes of the table are legal and the others illegal. -/
theorem illegalOpcodeBytes : Obligations.IllegalOpcodeBytes := by
  refine ⟨?_, rfl, rfl, rfl⟩
  have hlegal := legalOpcodeBytes_perm.length_eq.trans (show _ = 31 from rfl)
  have hsplit := (List.filter_append_perm (fun n => (ls8Default.lookup (BitVec.ofNat 8 n)).isNone)
    (List.range 256)).length_eq
  rw [List.length_append, List.length_range, hlegal] at hsplit
  omega

/-- Settles O50. -/
theorem defaultMapLayout : Obligations.DefaultMapLayout :=
  ⟨rfl, ls8Default_wellFormed, ls8_lookup⟩

/-- Settles O51: each word is the encoding of its instruction. -/
theorem wordsOfTheSpecDecode : Obligations.WordsOfTheSpecDecode :=
  ⟨decode_encode (.add 0#8 1#8), decode_encode (.inc 2#8), decode_encode (.cmp 2#8 3#8), decode_encode (.push 0#8),
    decode_encode (.call 1#8), decode_encode .ret, decode_encode (.jeq 0#8), decode_encode (.ldi 0#8 8#8),
    decode_encode (.prn 0#8), decode_encode .hlt, decode_encode .iret⟩

/-! ### The length, from the first byte -/

/-- Bits 7:6 of a byte as a quotient (R61). -/
theorem opcodeOperandCount_eq_div (op : Byte) : opcodeOperandCount op = op.toNat / 64 := by
  have h := op.isLt
  rw [opcodeOperandCount, BitVec.extractLsb'_toNat, Nat.shiftRight_eq_div_pow]
  omega

/-- Settles O48: a byte that is looked up announces its mnemonic's operand count, which is never 3. -/
theorem lengthFromFirstByte : Obligations.LengthFromFirstByte := by
  intro m op rest
  rw [← opcodeOperandCount_eq_div]
  constructor
  · intro i rest' h
    obtain ⟨op', hl, hbytes⟩ := decodeWith_eq_ok h
    rw [List.cons_append, List.cons.injEq] at hbytes
    obtain ⟨rfl, rfl⟩ := hbytes
    have hcount := (OpcodeMap.lookup_eq_some hl).2
    refine ⟨by rw [Instr.length, hcount], ?_⟩
    rw [Instr.length_eq, List.length_cons, List.length_append]
    omega
  · intro h3
    have hnone : m.lookup op = none := Option.eq_none_iff_forall_ne_some.mpr fun mn hl => by
      have hle := mn.operandCount_le
      rw [(OpcodeMap.lookup_eq_some hl).2, h3] at hle
      exact absurd hle (by decide)
    rw [decodeWith_cons, hnone]

end Sys2Proof

namespace Sys2Proof.Machine

/-! ### A stored instruction word, fetched -/

/-- Consecutive bytes written inside the address space are read back in order. -/
theorem Memory.map_read_writeBytes {m : Memory} (hm : m.wf = true) {a : Nat} {vs : List Byte}
    (h : a + vs.length ≤ memorySize) : (List.range' a vs.length).map (m.writeBytes a vs).read = vs := by
  refine List.ext_getElem (by simp) fun k _ hk => ?_
  rw [List.getElem_map, List.getElem_range', Memory.read_writeBytes hm h, Nat.one_mul, if_pos (by omega),
    Nat.add_sub_cancel_left, List.getD_eq_getElem?_getD, List.getElem?_eq_getElem hk, Option.getD_some]

/-- The fetch reads the three bytes stored at pc, where all three fit below address 256. -/
theorem fetchWindow_placeAtPc {s : State} (hm : s.mem.wf = true) {bytes : List Byte} (hlen : bytes.length = 3)
    (hpc : s.pc ≤ 253) : fetchWindow (placeAtPc s bytes) = bytes := by
  have hfit : s.pc + bytes.length ≤ memorySize := by
    rw [hlen, memorySize]
    omega
  have hwindow : min 3 (memorySize - s.pc) = bytes.length := by omega
  rw [fetchWindow, placeAtPc_pc, placeAtPc_mem, hwindow, Memory.place_eq_writeBytes hfit,
    Memory.map_read_writeBytes hm hfit]

theorem fetch_of_decodeWith {cfg : Config} {s : State} {i : Instr} {rest : List Byte}
    (h : decodeWith cfg.opcodeMap (fetchWindow s) = .ok (i, rest)) : fetch cfg s = .ok i := by
  rw [fetch, h]

theorem decodeTableWord_eq_some {nbits w : Nat} {i : Instr} (h : decodeTableWord nbits w = some i) :
    ∃ rest, decode (wordBytes nbits w) = .ok (i, rest) := by
  unfold decodeTableWord at h
  split at h
  · next hd =>
    cases h
    exact ⟨_, hd⟩
  · cases h

/-- Settles O41: the fetch window is the stored word, from which the decoder reads the instruction. -/
theorem storedWordRunsNext : Obligations.StoredWordRunsNext := by
  intro s nbits w i hm hpc hw
  obtain ⟨rest, hd⟩ := decodeTableWord_eq_some hw
  have hwindow : fetchWindow (s.withFetchWord nbits w) = wordBytes nbits w := fetchWindow_placeAtPc hm rfl hpc
  have hfetch : fetch ls8Config (s.withFetchWord nbits w) = .ok i :=
    fetch_of_decodeWith (by rw [hwindow]; exact hd)
  rw [step_of_running (s := s.withFetchWord nbits w) (placeAtPc_run s _), hfetch]
  rfl

/-! ### The image text -/

/-- One more binary digit: the bits of a number from k up are those from k + 1 up, then bit k. -/
theorem two_mul_div_add_testBit (x k : Nat) : 2 * (x / 2 ^ (k + 1)) + (x.testBit k).toNat = x / 2 ^ k := by
  rw [Nat.toNat_testBit, Nat.pow_succ, ← Nat.div_div_eq_div_mul]
  exact Nat.div_add_mod _ 2

/-- The character of a binary digit is read as that digit. -/
theorem digitOf_bit (b : Bool) : digitOf (if b then '1' else '0') = some b.toNat := by
  cases b <;> rfl

/-- Reading the lowest n digits of a number, after those above them, gives the number (R73). -/
theorem parseBits_testBits (x n : Nat) (cs : Line) :
    parseBits n (x / 2 ^ n) (((List.range n).reverse.map fun k => if x.testBit k then '1' else '0') ++ cs) =
      some (x, cs) := by
  induction n with
  | zero => simp [parseBits]
  | succ n ih =>
    rw [List.range_succ, List.reverse_concat, List.map_cons, List.cons_append]
    simp only [parseBits, digitOf_bit, two_mul_div_add_testBit, ih]

theorem parseBits_binaryDigits (v : Byte) (cs : Line) :
    parseBits 8 0 (Rules.binaryDigits v ++ cs) = some (v.toNat, cs) := by
  have h := parseBits_testBits v.toNat 8 cs
  rwa [Nat.div_eq_of_lt v.isLt] at h

/-- No binary line is blank or a comment: it begins with a digit. -/
theorem isTrailing_binaryDigits (v : Byte) (cs : Line) : isTrailing (Rules.binaryDigits v ++ cs) = false := by
  rw [Rules.binaryDigits, List.map_cons, List.cons_append, isTrailing]
  cases v.getLsbD 7 <;> rfl

theorem isTrailing_comment (cs : Line) : isTrailing ('#' :: cs) = true := rfl

/-- White space at the head of a line does not count. -/
theorem isTrailing_append {blanks : Line} (h : ∀ c ∈ blanks, isBlankChar c = true) (cs : Line) :
    isTrailing (blanks ++ cs) = isTrailing cs := by
  induction blanks with
  | nil => rfl
  | cons c blanks ih =>
    obtain ⟨hc, hblanks⟩ := List.forall_mem_cons.mp h
    have hne : (c == '#') = false := beq_false_of_ne fun e => absurd (e ▸ hc) (by decide)
    rw [List.cons_append, isTrailing, hne, hc, ih hblanks]
    rfl

theorem isTrailing_of_blank {blanks : Line} (h : ∀ c ∈ blanks, isBlankChar c = true) : isTrailing blanks = true := by
  rw [← List.append_nil blanks, isTrailing_append h, isTrailing]

theorem parseLine_of_isTrailing {cs : Line} (h : isTrailing cs = true) : parseLine cs = .skipped := by
  rw [parseLine, if_pos h]

/-- A byte's digits, with white space or a comment after them, are read as the byte (R73). -/
theorem parseLine_binaryDigits (v : Byte) {cs : Line} (h : isTrailing cs = true) :
    parseLine (Rules.binaryDigits v ++ cs) = .byte v := by
  simp [parseLine, isTrailing_binaryDigits, parseBits_binaryDigits, h]

theorem parseLine_binaryDigits_alone (v : Byte) : parseLine (Rules.binaryDigits v) = .byte v := by
  rw [← List.append_nil (Rules.binaryDigits v)]
  exact parseLine_binaryDigits v rfl

/-- Settles O52: each clause says what follows the digits, or stands alone on the line. -/
theorem binaryLineIsRead : Obligations.BinaryLineIsRead := by
  refine ⟨rfl, rfl, fun v comment blanks hblanks => ?_⟩
  have hcomment := isTrailing_comment comment
  have hblank := isTrailing_of_blank hblanks
  have hboth : isTrailing (blanks ++ '#' :: comment) = true := by
    rw [isTrailing_append hblanks, hcomment]
  have hline : parseLine (Rules.binaryDigits v ++ blanks ++ '#' :: comment) = .byte v := by
    rw [List.append_assoc]
    exact parseLine_binaryDigits v hboth
  exact ⟨parseLine_binaryDigits_alone v, parseLine_binaryDigits v hcomment, parseLine_binaryDigits v hblank,
    parseLine_of_isTrailing hcomment, parseLine_of_isTrailing hblank, hline, parseLine_of_isTrailing hboth⟩

/-- Settles O53, by induction on the image. -/
theorem imageTextRoundTrip : Obligations.ImageTextRoundTrip := by
  intro image
  induction image with
  | nil => rfl
  | cons v image ih =>
    simp only [List.map_cons, parseImage, parseLine_binaryDigits_alone, ih]

end Sys2Proof.Machine

/-! ## Family 40_cycle: the step, its fetch and its limit, and how a run ends -/

namespace Sys2Proof

/-- The bytes of a built instruction: its opcode byte, and as many of the operands as it has (R63, R84). -/
theorem encode_build (m : Mnemonic) (a b : Byte) :
    encode (m.build a b) = [m.ls8Opcode, a, b].take (m.build a b).length := by
  cases m <;> rfl

/-- Operand decoding names the first byte after too short a list (R84). -/
theorem decodeOperands_of_short {n : Nat} {rest : List Byte} (m : Mnemonic) (hn : n ≤ 2) (hshort : rest.length < n) :
    decodeOperands m n rest = .error (.missingByte (rest.length + 1)) := by
  match n, rest, hn, hshort with
  | 1, [], _, _ | 2, [], _, _ | 2, [_], _, _ => rfl

end Sys2Proof

namespace Sys2Proof.Machine

/-! ### The fetch, by the first byte that stops it -/

/-- Below address 256 the fetch reads the byte at pc, and after it all of the next two that lie there (R82, R84). -/
theorem fetchWindow_eq_cons {s : State} (h : s.pc < memorySize) :
    ∃ rest, fetchWindow s = s.mem.read s.pc :: rest ∧ rest.length = min 2 (memorySize - (s.pc + 1)) := by
  obtain ⟨rest, hw⟩ := List.head?_eq_some_iff.mp (head?_fetchWindow h)
  refine ⟨rest, hw, ?_⟩
  have hlen := fetchWindow_length s
  rw [hw, List.length_cons] at hlen
  omega

/-- With pc at 256 or above, the fetch of the opcode byte faults (R82). -/
theorem fetch_of_pc_ge {cfg : Config} {s : State} (h : memorySize ≤ s.pc) :
    fetch cfg s = .error (.fetchOutOfRange s.pc) := by
  rw [fetch, fetchWindow_none h]
  rfl

/-- An opcode byte with no row faults, whatever follows it (R83). -/
theorem fetch_of_no_row {cfg : Config} {s : State} (hpc : s.pc < memorySize)
    (hrow : cfg.opcodeMap.lookup (s.mem.read s.pc) = none) :
    fetch cfg s = .error (.illegalOpcode (s.mem.read s.pc)) := by
  obtain ⟨rest, hw, -⟩ := fetchWindow_eq_cons hpc
  rw [fetch, hw, decodeWith_cons, hrow]

/-- An operand byte above address 255 faults; the first such byte is always at 256 (R84). -/
theorem fetch_of_operand_out_of_range {cfg : Config} {s : State} {m : Mnemonic} (hpc : s.pc < memorySize)
    (hrow : cfg.opcodeMap.lookup (s.mem.read s.pc) = some m) (hout : memorySize ≤ s.pc + m.operandCount) :
    fetch cfg s = .error (.fetchOutOfRange memorySize) := by
  obtain ⟨rest, hw, hlen⟩ := fetchWindow_eq_cons hpc
  have hcount := m.operandCount_le
  have hshort : rest.length < m.operandCount := by omega
  have hfirst : s.pc + (rest.length + 1) = memorySize := by omega
  rw [fetch, hw, decodeWith_cons, hrow, ← (OpcodeMap.lookup_eq_some hrow).2]
  simp only [decodeOperands_of_short m hcount hshort, hfirst]

/-- Bytes that stand at pc below address 256, no more than the longest instruction has, begin the fetch window. -/
theorem prefix_fetchWindow {s : State} {bytes : List Byte} (hlen : bytes.length ≤ 3)
    (hfit : s.pc + bytes.length ≤ memorySize)
    (hbytes : ∀ k, (h : k < bytes.length) → s.mem.read (s.pc + k) = bytes[k]) :
    bytes <+: fetchWindow s := by
  rw [List.prefix_iff_getElem?]
  intro k hk
  rw [getElem?_fetchWindow (by omega), hbytes k hk]

/-- An instruction whose bytes stand at pc below address 256 is fetched. -/
theorem fetch_encode {i : Instr} {s : State} (hfit : s.pc + i.length ≤ memorySize)
    (hbytes : ∀ k, (h : k < (encode i).length) → s.mem.read (s.pc + k) = (encode i)[k]) :
    fetch ls8Config s = .ok i := by
  rw [← encode_length] at hfit
  have hlen : (encode i).length ≤ 3 := encode_length i ▸ i.length_le
  obtain ⟨rest, hw⟩ := prefix_fetchWindow hlen hfit hbytes
  exact fetch_of_decodeWith (decode_eq_ok_iff.mpr hw.symm)

/-! ### The step of a running core, by what its fetch gives -/

theorem step_of_fetch_ok {s : State} {i : Instr} (hr : s.run = .running) (hf : fetch ls8Config s = .ok i) :
    step s = exec i (beginStep s) := by
  rw [step_of_running hr, hf]

theorem step_of_fetch_error {s : State} {f : CoreFault} (hr : s.run = .running)
    (hf : fetch ls8Config s = .error f) : step s = .next (takeFault (beginStep s) f) := by
  rw [step_of_running hr, hf]

/-- Settles O34: the instruction whose bytes stand at pc is the one fetched. -/
theorem stepRunsTheInstructionAtPc : Obligations.StepRunsTheInstructionAtPc :=
  fun _ _ hr hfit hbytes => step_of_fetch_ok hr (fetch_encode hfit hbytes)

/-- A legal opcode byte with its operand bytes below address 256 runs the instruction they spell. -/
theorem step_of_operands_in_range {s : State} {m : Mnemonic} (hr : s.run = .running)
    (hop : m.ls8Opcode = s.mem.read s.pc) (hin : s.pc + m.operandCount < memorySize) :
    step s = exec (m.build (s.mem.read (s.pc + 1)) (s.mem.read (s.pc + 2))) (beginStep s) := by
  refine stepRunsTheInstructionAtPc _ s hr ?_ fun k hk => ?_
  · rw [Instr.length, Mnemonic.build_mnemonic, ← Nat.add_assoc, Nat.add_right_comm]
    exact hin
  · have hk3 : k < 3 := Nat.lt_of_lt_of_le hk (encode_length _ ▸ Instr.length_le _)
    simp only [encode_build, List.getElem_take]
    obtain rfl | rfl | rfl : k = 0 ∨ k = 1 ∨ k = 2 := by omega
    · exact hop.symm
    · rfl
    · rfl

/-- Settles O35: each clause is one outcome of the fetch. -/
theorem fetchDecodeOperandFetch : Obligations.FetchDecodeOperandFetch := by
  intro s hr
  refine ⟨fun hpc => step_of_fetch_error hr (fetch_of_pc_ge hpc), fun hpc hno => ?_, fun m hpc hop => ?_⟩
  · have hrow : ls8Default.lookup (s.mem.read s.pc) = none :=
      Option.eq_none_iff_forall_ne_some.mpr fun m hm => hno m (ls8_lookup_eq_some hm).symm
    exact step_of_fetch_error hr (fetch_of_no_row (Nat.lt_succ_of_le hpc) hrow)
  · rw [← hop, ls8_operandCount]
    refine ⟨fun hout => ?_, fun hin => step_of_operands_in_range hr hop (Nat.lt_succ_of_le hin)⟩
    have hrow : ls8Default.lookup (s.mem.read s.pc) = some m := ls8_lookup_eq_some_iff.mpr hop.symm
    exact step_of_fetch_error hr (fetch_of_operand_out_of_range (Nat.lt_succ_of_le hpc) hrow hout)

/-! ### The step under any parameters -/

theorem stepWith_of_running {s : State} (cfg : Config) (h : s.run = .running) : stepWith cfg s = cycle cfg s := by
  rw [stepWith, h]

/-- The cycle always gives a next state: at the step limit, from a fault of the fetch, or from the instruction. -/
theorem cycle_next (cfg : Config) (s : State) : ∃ t, cycle cfg s = .next t := by
  unfold cycle
  split
  · exact ⟨_, rfl⟩
  · split
    · exact exec_next _ _
    · exact ⟨_, rfl⟩

/-- Settles O36. -/
theorem stepsExactlyWhileRunning : Obligations.StepsExactlyWhileRunning :=
  fun cfg s => ⟨fun hr => stepWith_of_running cfg hr ▸ cycle_next cfg s, stepWith_of_not_running⟩

theorem limitReached_of_some {cfg : Config} {n : Nat} (h : cfg.stepLimit = some n) (s : State) :
    limitReached cfg s = decide (n ≤ s.steps) := by
  rw [limitReached, h]

theorem limitReached_of_none {cfg : Config} (h : cfg.stepLimit = none) (s : State) : limitReached cfg s = false := by
  rw [limitReached, h]

/-- The step limit, reached, stops the core and does nothing else (R81). -/
theorem cycle_of_limitReached {cfg : Config} {s : State} (h : limitReached cfg s = true) :
    cycle cfg s = .next { s with run := .stepLimitReached } := by
  rw [cycle, if_pos h]

/-- The step limit, not reached, plays no part in the cycle (R81). -/
theorem cycle_of_not_limitReached {cfg : Config} {s : State} (h : limitReached cfg s = false) :
    cycle cfg s = cycle { cfg with stepLimit := none } s := by
  rw [cycle, h]
  rfl

/-- Only the step limit gives `StepLimitReached`. -/
theorem run_ne_stepLimitReached {cfg : Config} {s t : State} (h : stepWith cfg s = .next t)
    (hl : limitReached cfg s = false) : t.run ≠ .stepLimitReached := by
  rcases stepWith_shape h with ⟨hreached, -⟩ | ⟨f, rfl⟩ | ⟨i, -, hs⟩
  · rw [hl] at hreached
    cases hreached
  · simp
  · have hr := running_of_stepWith h
    rw [hs.run_of_running hr]
    split <;> simp

/-- Settles O37: the limit, by whether it is reached. -/
theorem stepLimit : Obligations.StepLimit := by
  intro cfg s hr
  refine ⟨fun n hn hle => ?_, fun n hn hlt => ?_, fun hnone t ht => ?_⟩
  · rw [stepWith_of_running cfg hr, cycle_of_limitReached]
    rw [limitReached_of_some hn, decide_eq_true hle]
  · rw [stepWith_of_running _ hr, stepWith_of_running _ hr, cycle_of_not_limitReached]
    rw [limitReached_of_some hn, decide_eq_false (Nat.not_le.mpr hlt)]
  · exact run_ne_stepLimitReached ht (limitReached_of_none hnone s)

/-! ### How a run ends -/

/-- The state a run starts from: reset, with the image in memory (R190, R194). -/
theorem boot_eq_some {image : List Byte} {s : State} (h : State.boot image = some s) :
    image.length ≤ memorySize ∧ s = { State.reset with mem := State.reset.mem.writeBytes 0 image } := by
  unfold State.boot at h
  split at h
  · next hgood => exact ⟨of_decide_eq_true hgood, (Option.some.inj h).symm⟩
  · cases h

/-- The image changes memory alone, and keeps its canonical form; so a run starts in the invariant. -/
theorem boot_inv {image : List Byte} {s : State} (h : State.boot image = some s) : s.Inv := by
  obtain ⟨hlen, rfl⟩ := boot_eq_some h
  have hfit : 0 + image.length ≤ memorySize := by rwa [Nat.zero_add]
  exact { resetMeetsInvariant with
    mem_wf := Memory.wf_writeBytes resetMeetsInvariant.mem_wf hfit
    halted_at_hlt := nofun }

/-- The invariant holds of every state of a run under the default parameters. -/
theorem Reachable.inv {image : List Byte} {s : State} (h : Reachable ls8Config image s) : s.Inv := by
  induction h with
  | boot h => exact boot_inv h
  | step _ h ih => exact stepKeepsInvariant _ _ ih h

/-- An event that reports no fault is no `Diag`. -/
theorem diag_notMem {es : List Event} (h : ∀ e ∈ es, e.isDiag = false) (f : CoreFault) (addr : Nat) :
    .diag f addr ∉ es :=
  fun hmem => Bool.noConfusion (h _ hmem)

/-- Settles O45: where no step goes on the core is not running, and for each other run state the invariant says how
the run ended. -/
theorem runsEndHaltedOrFaulted : Obligations.RunsEndHaltedOrFaulted := by
  intro image s hs hend
  have hi := hs.inv
  cases hr : s.run with
  | running =>
    obtain ⟨t, ht⟩ := (stepsExactlyWhileRunning ls8Config s).1 hr
    exact absurd ht (hend t)
  | halted =>
    obtain ⟨hpc, hread⟩ := hi.halted_at_hlt hr
    exact .inl ⟨rfl, Nat.le_of_lt_succ hpc, hread, diag_notMem (hi.no_early_diag (by simp [hr]))⟩
  | faulted f =>
    obtain ⟨before, hout, hbefore⟩ := hi.faulted_reported f hr
    exact .inr ⟨f, before, rfl, hout, diag_notMem hbefore⟩
  | stepLimitReached => exact absurd hr hi.no_limit

end Sys2Proof.Machine

/-! ## Family 41_alu: the results, the frame and the faults of the ALU instructions, and the jumps after CMP -/

namespace Sys2Proof.Machine

/-- A default encoding is as long as its instruction: three bytes for two operands, two for one. -/
theorem length_of_encode {i : Instr} {bytes : List Byte} (h : encode i = bytes) : i.length = bytes.length := by
  rw [← encode_length, h]

/-- A register reads back what an instruction wrote to it before its pc update. -/
theorem holds_setReg_setPc {s : State} {i : Byte} (h : i.toNat < registerCount) (v : Byte) (n : Nat) :
    State.Holds { s.setReg i v with pc := n } i v :=
  holds_iff.mpr (readReg_setReg_same h)

/-! ### Executing an instruction whose effect is followed by the dispatcher's pc update -/

section
variable {i : Instr} {s : State} {x : Except CoreFault State} (heff : effectOf i s = advance i x)
include heff

theorem exec_of_advance_ok {t : State} (hx : x = .ok t) : exec i s = .next { t with pc := t.pc + i.length } := by
  rw [exec_eq_complete, heff, hx, advance_ok, complete_ok]

theorem exec_of_advance_error {e : CoreFault} (hx : x = .error e) : exec i s = .next (takeFault s e) := by
  rw [exec_eq_complete, heff, hx, advance_error, complete_error]

end

/-! ### Two operands -/

/-- The faults of a `regReg` instruction's operands, x[a] before x[b], whatever its operation. -/
theorem exec_regReg_operand_faults {i : Instr} {g : Byte → Byte → Except CoreFault Byte} {a b : Byte} {s : State}
    (heff : effectOf i s = advance i (regReg g a b s)) :
    (∀ e, s.ReadFault a e → exec i s = .next (takeFault s e)) ∧
      (∀ va e, s.Holds a va → s.ReadFault b e → exec i s = .next (takeFault s e)) :=
  ⟨fun _ ha => exec_of_advance_error heff (regReg_error_left (readFault_iff.mp ha) b),
    fun _ _ ha hb => exec_of_advance_error heff (regReg_error_right (holds_iff.mp ha) (readFault_iff.mp hb))⟩

/-- A `regReg` instruction whose operation answers writes the result to x[a]. -/
theorem exec_regReg_ok {i : Instr} {g : Byte → Byte → Except CoreFault Byte} {a b va vb v : Byte} {s : State}
    (heff : effectOf i s = advance i (regReg g a b s)) (ha : s.Holds a va) (hb : s.Holds b vb)
    (hv : g va vb = .ok v) : exec i s = .next { s.setReg a v with pc := s.pc + i.length } :=
  exec_of_advance_ok heff (regReg_ok (holds_iff.mp ha) (holds_iff.mp hb) hv)

/-- A `regReg` instruction whose operation is total meets the template of R101. -/
theorem twoOperand_of_regReg {mk : Byte → Byte → Instr} {opcode : Byte} {g f : Byte → Byte → Byte}
    (hbytes : ∀ a b, encode (mk a b) = [opcode, a, b])
    (heff : ∀ a b s, effectOf (mk a b) s = advance (mk a b) (regReg (fun x y => .ok (g x y)) a b s))
    (hresult : ∀ x y, g x y = f x y) : Rules.TwoOperand mk opcode f := by
  intro a b s
  have hlen : (mk a b).length = 3 := length_of_encode (hbytes a b)
  refine ⟨hbytes a b, hlen, fun va vb ha hb => ?_, exec_regReg_operand_faults (heff a b s)⟩
  rw [exec_regReg_ok (heff a b s) ha hb rfl, hresult, hlen]

/-! ### Bytes as numbers -/

/-- A difference taken mod 256 is that of the integers. -/
theorem sub_eq_ofInt (x y : Byte) : x - y = BitVec.ofInt 8 ((x.toNat : Int) - (y.toNat : Int)) := by
  rw [Int.sub_eq_add_neg, BitVec.ofInt_add, BitVec.ofInt_neg, BitVec.ofInt_natCast, BitVec.ofInt_natCast,
    BitVec.ofNat_toNat, BitVec.ofNat_toNat, BitVec.setWidth_eq, BitVec.setWidth_eq, BitVec.sub_eq_add_neg]

/-- Settles O8: each operation is the numbers' own, taken mod 256. -/
theorem arithmeticResults : Obligations.ArithmeticResults := by
  refine ⟨twoOperand_of_regReg (fun _ _ => rfl) (fun _ _ _ => rfl) BitVec.add_def,
    twoOperand_of_regReg (fun _ _ => rfl) (fun _ _ _ => rfl) sub_eq_ofInt,
    twoOperand_of_regReg (fun _ _ => rfl) (fun _ _ _ => rfl) fun x y => ?_⟩
  exact BitVec.eq_of_toNat_eq (by rw [BitVec.toNat_mul, BitVec.toNat_ofNat])

/-- Settles O11: a byte is the number of its own bits. -/
theorem logicResults : Obligations.LogicResults := by
  refine ⟨twoOperand_of_regReg (fun _ _ => rfl) (fun _ _ _ => rfl) fun x y => ?_,
    twoOperand_of_regReg (fun _ _ => rfl) (fun _ _ _ => rfl) fun x y => ?_,
    twoOperand_of_regReg (fun _ _ => rfl) (fun _ _ _ => rfl) fun x y => ?_⟩
  · simp [BitVec.ofNat_and]
  · simp [BitVec.ofNat_or]
  · simp [BitVec.ofNat_xor]

/-- Settles O12: an unmasked shift multiplies or divides by the power of two of the whole count. -/
theorem shiftResults : Obligations.ShiftResults := by
  refine ⟨twoOperand_of_regReg (fun _ _ => rfl) (fun _ _ _ => rfl) fun x y => BitVec.eq_of_toNat_eq ?_,
    twoOperand_of_regReg (fun _ _ => rfl) (fun _ _ _ => rfl) fun x y => BitVec.eq_of_toNat_eq ?_⟩
  · rw [BitVec.toNat_shiftLeft, BitVec.toNat_ofNat, Nat.shiftLeft_eq]
  · have hlt : x.toNat / 2 ^ y.toNat < 2 ^ 8 := Nat.lt_of_le_of_lt (Nat.div_le_self _ _) x.isLt
    rw [BitVec.toNat_ushiftRight, BitVec.toNat_ofNat, Nat.mod_eq_of_lt hlt, Nat.shiftRight_eq_div_pow]

/-! ### Division -/

theorem divide_ok {y : Byte} (h : y ≠ 0#8) (x : Byte) : divide x y = .ok (x / y) := if_neg h
theorem divide_zero (x : Byte) : divide x 0#8 = .error .divideByZero := if_pos rfl
theorem remainder_ok {y : Byte} (h : y ≠ 0#8) (x : Byte) : remainder x y = .ok (x % y) := if_neg h
theorem remainder_zero (x : Byte) : remainder x 0#8 = .error .divideByZero := if_pos rfl

/-- A `regReg` instruction whose operation raises for a zero divisor alone meets the rule of R104 and R105. -/
theorem division_of_regReg {mk : Byte → Byte → Instr} {opcode : Byte} {g : Byte → Byte → Except CoreFault Byte}
    {q : Byte → Byte → Byte} {f : Nat → Nat → Nat}
    (hbytes : ∀ a b, encode (mk a b) = [opcode, a, b])
    (heff : ∀ a b s, effectOf (mk a b) s = advance (mk a b) (regReg g a b s))
    (hzero : ∀ x, g x 0#8 = .error .divideByZero) (hok : ∀ {y}, y ≠ 0#8 → ∀ x, g x y = .ok (q x y))
    (hresult : ∀ x y, (q x y).toNat = f x.toNat y.toNat) : Rules.Division mk opcode f := by
  intro a b s
  have hlen : (mk a b).length = 3 := length_of_encode (hbytes a b)
  refine ⟨hbytes a b, hlen, fun va vb ha hb hne => ?_,
    fun va ha hb => exec_of_advance_error (heff a b s)
      (regReg_error_result (holds_iff.mp ha) (holds_iff.mp hb) (hzero va)),
    exec_regReg_operand_faults (heff a b s)⟩
  rw [← hresult, BitVec.ofNat_toNat, BitVec.setWidth_eq, ← hlen]
  exact ⟨exec_regReg_ok (heff a b s) ha hb (hok hne va), (q va vb).isLt⟩

/-- Settles O9: the model's remainder is what the floor quotient leaves. -/
theorem divisionResults : Obligations.DivisionResults :=
  ⟨division_of_regReg (fun _ _ => rfl) (fun _ _ _ => rfl) divide_zero divide_ok fun _ _ => BitVec.toNat_udiv,
    division_of_regReg (fun _ _ => rfl) (fun _ _ _ => rfl) remainder_zero remainder_ok fun _ _ =>
      BitVec.toNat_umod.trans (Nat.mod_def _ _)⟩

/-- Settles O14: DIV and MOD leave quotient and remainder of the same two numbers. -/
theorem divisionIdentity : Obligations.DivisionIdentity := by
  intro a b va vb s ha hb hne
  have hlt : a.toNat < registerCount := lt_of_readReg_ok (holds_iff.mp ha)
  have hpos : 0 < vb.toNat := Nat.pos_of_ne_zero fun h => hne (BitVec.eq_of_toNat_eq h)
  refine ⟨_, _, va / vb, va % vb, exec_regReg_ok rfl ha hb (divide_ok hne va),
    exec_regReg_ok rfl ha hb (remainder_ok hne va), holds_setReg_setPc hlt _ _, holds_setReg_setPc hlt _ _, ?_, ?_⟩
  · rw [BitVec.toNat_udiv, BitVec.toNat_umod, Nat.div_add_mod]
  · rw [BitVec.toNat_umod]
    exact Nat.mod_lt _ hpos

/-! ### One operand -/

/-- A `regOnly` instruction meets the template of R106. -/
theorem oneOperand_of_regOnly {mk : Byte → Instr} {opcode : Byte} {g f : Byte → Byte}
    (hbytes : ∀ a, encode (mk a) = [opcode, a])
    (heff : ∀ a s, effectOf (mk a) s = advance (mk a) (regOnly g a s))
    (hresult : ∀ x, g x = f x) : Rules.OneOperand mk opcode f := by
  intro a s
  have hlen : (mk a).length = 2 := length_of_encode (hbytes a)
  refine ⟨hbytes a, hlen, fun va ha => ?_,
    fun e ha => exec_of_advance_error (heff a s) (regOnly_error (readFault_iff.mp ha))⟩
  rw [← hresult, ← hlen]
  exact exec_of_advance_ok (heff a s) (regOnly_ok (holds_iff.mp ha))

/-- Settles O10: INC and DEC are taken mod 256, and the complement of a byte is its distance from 255. -/
theorem oneOperandResults : Obligations.OneOperandResults := by
  refine ⟨oneOperand_of_regOnly (fun _ => rfl) (fun _ _ => rfl) fun x => BitVec.add_def x 1#8,
    oneOperand_of_regOnly (fun _ => rfl) (fun _ _ => rfl) fun x => sub_eq_ofInt x 1#8,
    oneOperand_of_regOnly (fun _ => rfl) (fun _ _ => rfl) fun x => BitVec.eq_of_toNat_eq ?_⟩
  have hlt : 255 - x.toNat < 2 ^ 8 := Nat.lt_succ_of_le (Nat.sub_le _ _)
  rw [BitVec.toNat_not, BitVec.toNat_ofNat, Nat.mod_eq_of_lt hlt]

/-! ### CMP and the flags it writes -/

/-- The byte CMP writes, by the three ways a comparison can end (R114). -/
theorem compareFlags_eq (va vb : Byte) :
    compareFlags va vb = if va.toNat < vb.toNat then 4#8 else if vb.toNat < va.toNat then 2#8 else 1#8 := by
  simp only [compareFlags, BitVec.lt_def, ← BitVec.toNat_inj]
  rcases Nat.lt_trichotomy va.toNat vb.toNat with h | h | h
  · simp [h, Nat.ne_of_lt h, Nat.lt_asymm h, flagBit]
  · simp [h, flagBit]
  · simp [h, Nat.ne_of_gt h, Nat.lt_asymm h, flagBit]

/-- The bits of FL are read back from where CMP puts them (R26, R114). -/
theorem flags_of_flagBits (l g e : Bool) :
    flagE (flagBit l <<< 2 ||| flagBit g <<< 1 ||| flagBit e) = e ∧
      flagG (flagBit l <<< 2 ||| flagBit g <<< 1 ||| flagBit e) = g ∧
      flagL (flagBit l <<< 2 ||| flagBit g <<< 1 ||| flagBit e) = l := by
  revert l g e
  decide

theorem flagE_compareFlags (va vb : Byte) : flagE (compareFlags va vb) = decide (va.toNat = vb.toNat) :=
  (flags_of_flagBits _ _ _).1.trans (decide_eq_decide.mpr BitVec.toNat_inj.symm)

theorem flagG_compareFlags (va vb : Byte) : flagG (compareFlags va vb) = decide (vb.toNat < va.toNat) :=
  (flags_of_flagBits _ _ _).2.1

theorem flagL_compareFlags (va vb : Byte) : flagL (compareFlags va vb) = decide (va.toNat < vb.toNat) :=
  (flags_of_flagBits _ _ _).2.2

theorem exec_cmp_ok {a b va vb : Byte} {s : State} (ha : s.Holds a va) (hb : s.Holds b vb) :
    exec (.cmp a b) s = .next { s.setReg regFL (compareFlags va vb) with pc := s.pc + 3 } :=
  exec_of_advance_ok rfl (compareOperands_ok (holds_iff.mp ha) (holds_iff.mp hb))

theorem compareOperands_error_left {a : Byte} {s : State} {e : CoreFault} (ha : readReg s a = .error e) (b : Byte) :
    compareOperands a b s = .error e := by
  simp [compareOperands, ha]

theorem compareOperands_error_right {a b va : Byte} {s : State} {e : CoreFault} (ha : readReg s a = .ok va)
    (hb : readReg s b = .error e) : compareOperands a b s = .error e := by
  simp [compareOperands, ha, hb]

/-- Settles O13: FL is written with `compareFlags`, whose byte `compareFlags_eq` gives. -/
theorem compareWritesFlags : Obligations.CompareWritesFlags := by
  intro a b s
  refine ⟨rfl, rfl, fun va vb ha hb => ?_,
    fun e ha => exec_of_advance_error rfl (compareOperands_error_left (readFault_iff.mp ha) b),
    fun va e ha hb =>
      exec_of_advance_error rfl (compareOperands_error_right (holds_iff.mp ha) (readFault_iff.mp hb))⟩
  rw [← compareFlags_eq]
  exact exec_cmp_ok ha hb

/-- After CMP, FL reads as the comparison's byte. -/
theorem readReg_regFL_of_cmp {a b va vb : Byte} {s t : State} (ha : s.Holds a va) (hb : s.Holds b vb)
    (h : exec (.cmp a b) s = .next t) : readReg t regFL = .ok (compareFlags va vb) := by
  rw [exec_cmp_ok ha hb] at h
  cases h
  exact readReg_setReg_same regFL_lt

/-! ### Conditional jumps -/

/-- The next state of a conditional jump through a register that holds a target (R136). -/
theorem exec_condJump_ok {i : Instr} {cond : Bool → Bool → Bool → Bool} {c fl target : Byte} {s : State}
    (heff : effectOf i s = condJump i cond c s) (hfl : readReg s regFL = .ok fl) (hc : s.Holds c target) :
    exec i s = .next { s with
      pc := if cond (flagE fl) (flagG fl) (flagL fl) = true then target.toNat else s.pc + i.length } := by
  rw [exec_eq_complete, heff]
  cases h : cond (flagE fl) (flagG fl) (flagL fl) with
  | true =>
    rw [condJump_taken hfl h, jump_ok (holds_iff.mp hc)]
    rfl
  | false =>
    rw [condJump_not_taken hfl h]
    rfl

/-- A conditional jump on the flags of a comparison decides the relation `P` that its condition says of the two
numbers. -/
theorem exec_condJump_compared {i : Instr} {cond : Bool → Bool → Bool → Bool} {c va vb target : Byte} {s : State}
    {P : Prop} [Decidable P] (heff : effectOf i s = condJump i cond c s)
    (hfl : readReg s regFL = .ok (compareFlags va vb)) (hc : s.Holds c target)
    (hP : cond (va.toNat = vb.toNat) (vb.toNat < va.toNat) (va.toNat < vb.toNat) = decide P) :
    exec i s = .next { s with pc := if P then target.toNat else s.pc + i.length } := by
  rw [exec_condJump_ok heff hfl hc, flagE_compareFlags, flagG_compareFlags, flagL_compareFlags, hP]
  simp only [decide_eq_true_eq]

/-- An unsigned comparison holds weakly when it holds strictly or the numbers are equal. -/
theorem decide_lt_or_eq (m n : Nat) : (decide (m < n) || decide (m = n)) = decide (m ≤ n) := by
  rw [← Bool.decide_or, decide_eq_decide]
  exact Nat.le_iff_lt_or_eq.symm

/-- Settles O21: FL holds the three comparisons, so each jump's condition is the one it is named for. -/
theorem compareThenJump : Obligations.CompareThenJump := by
  intro a b va vb s t ha hb hcmp c target hc
  have hfl := readReg_regFL_of_cmp ha hb hcmp
  have hge : (decide (vb.toNat < va.toNat) || decide (va.toNat = vb.toNat)) = decide (vb.toNat ≤ va.toNat) := by
    simpa only [eq_comm] using decide_lt_or_eq vb.toNat va.toNat
  exact ⟨exec_condJump_compared (cond := fun E _ _ => E) rfl hfl hc rfl,
    exec_condJump_compared (cond := fun E _ _ => !E) rfl hfl hc decide_not.symm,
    exec_condJump_compared (cond := fun _ G _ => G) rfl hfl hc rfl,
    exec_condJump_compared (cond := fun E G _ => G || E) rfl hfl hc hge,
    exec_condJump_compared (cond := fun _ _ L => L) rfl hfl hc rfl,
    exec_condJump_compared (cond := fun E _ L => L || E) rfl hfl hc (decide_lt_or_eq _ _)⟩

end Sys2Proof.Machine

/-! ## Family 42_control_transfer: the stack, CALL and RET, the jumps, and the laws of R143 -/

namespace Sys2Proof.Machine

/-! ### Executing an instruction that sets pc itself -/

theorem exec_of_effect_ok {i : Instr} {s t : State} (h : effectOf i s = .ok t) : exec i s = .next t := by
  rw [exec_eq_complete, h, complete_ok]

theorem exec_of_effect_error {i : Instr} {s : State} {e : CoreFault} (h : effectOf i s = .error e) :
    exec i s = .next (takeFault s e) := by
  rw [exec_eq_complete, h, complete_error]

/-! ### PUSH and POP -/

/-- Settles O15. -/
theorem pushStoresBelowTheTop : Obligations.PushStoresBelowTheTop := by
  intro a sp s hs
  have hsp : readReg s regSP = .ok sp := holds_iff.mp hs
  exact ⟨rfl, rfl, fun va ha => exec_push_ok hsp (holds_iff.mp ha),
    fun e ha => exec_of_advance_error rfl (push_error hsp (readFault_iff.mp ha))⟩

/-- The next state of POP into one of the eight registers (R132). -/
theorem exec_pop_ok {s : State} {a sp : Byte} (hs : readReg s regSP = .ok sp) (ha : a.toNat < registerCount) :
    exec (.pop a) s = .next { (s.setReg a (s.mem.read sp.toNat)).setReg regSP
      ((if a = regSP then s.mem.read sp.toNat else sp) + 1#8) with pc := s.pc + 2 } :=
  exec_of_advance_ok rfl (pop_ok hs ha)

/-- Settles O16: POP R7 writes SP twice, and only the second write is seen. -/
theorem popReadsTheTop : Obligations.PopReadsTheTop := by
  intro a sp s hs
  have hsp : readReg s regSP = .ok sp := holds_iff.mp hs
  refine ⟨rfl, rfl, fun ha => ?_, fun ha => ?_, fun ha => exec_of_advance_error rfl (pop_error hsp ha)⟩
  · have hne : a ≠ regSP := by
      rintro rfl
      exact Nat.lt_irrefl 7 ha
    rw [exec_pop_ok hsp (Nat.lt_succ_of_lt ha), if_neg hne]
    rfl
  · obtain rfl : a = regSP := BitVec.eq_of_toNat_eq ha
    rw [exec_pop_ok hsp regSP_lt, if_pos rfl, setReg_setReg_same]
    rfl

/-- POP into a register that already holds the top of the stack changes SP and pc alone, for POP R7 too: there the top
is SP's own byte. -/
theorem exec_pop_of_holds_top {s : State} {a sp : Byte} (hs : readReg s regSP = .ok sp)
    (ha : readReg s a = .ok (s.mem.read sp.toNat)) :
    exec (.pop a) s = .next { s.setReg regSP (sp + 1#8) with pc := s.pc + 2 } := by
  have htop : (if a = regSP then s.mem.read sp.toNat else sp) = sp := by
    split
    · next e => exact Except.ok.inj ((e ▸ ha).symm.trans hs)
    · rfl
  rw [exec_pop_ok hs (lt_of_readReg_ok ha), htop, setReg_eq_self ha]

/-- Settles O22: after PUSH the register still holds the top of the stack, so POP changes nothing but SP, which it
takes back to where it was. -/
theorem pushThenPopRestores : Obligations.PushThenPopRestores := by
  intro a sp v s hm hs ha
  have hsp : readReg s regSP = .ok sp := holds_iff.mp hs
  have hva : readReg s a = .ok v := holds_iff.mp ha
  refine ⟨_, _, exec_push_ok hsp hva, exec_pop_of_holds_top (readReg_setReg_same regSP_lt) ?_,
    ?_, rfl, rfl, rfl, rfl, Memory.read_write hm _ _⟩
  · rw [Memory.read_write_same hm]
    exact readReg_setSP _ hva
  · have hregs : ((s.setReg regSP (sp - 1#8)).setReg regSP (sp - 1#8 + 1#8)).regs = s.regs := by
      rw [setReg_setReg_same, BitVec.sub_add_cancel, setReg_eq_self hsp]
    exact hregs

/-! ### CALL and RET -/

/-- The next state of CALL through a written register, with a return address that fits a byte (R133). -/
theorem exec_call_ok {s : State} {a sp va : Byte} (hp : s.pc < 254) (hs : readReg s regSP = .ok sp)
    (ha : readReg s a = .ok va) :
    exec (.call a) s = .next { s.setReg regSP (sp - 1#8) with
      mem := s.mem.write (sp - 1#8).toNat (BitVec.ofNat 8 (s.pc + 2))
      pc := (if a = regSP then sp - 1#8 else va).toNat } :=
  exec_of_effect_ok (call_ok (Nat.add_le_add_right (Nat.le_of_lt_succ hp) 2) hs ha)

/-- Settles O17: the return address is checked before the operand is read. -/
theorem callPushesReturnAddress : Obligations.CallPushesReturnAddress := by
  intro a sp s hs
  have hsp : readReg s regSP = .ok sp := holds_iff.mp hs
  refine ⟨rfl, rfl, fun hp => exec_of_effect_error (call_error_return (Nat.add_le_add_right hp 2)),
    fun va hp ha => ?_, fun e hp ha => ?_⟩
  · rw [exec_call_ok hp hsp (holds_iff.mp ha), apply_ite BitVec.toNat]
    rfl
  · exact exec_of_effect_error
      (call_error_target (Nat.add_le_add_right (Nat.le_of_lt_succ hp) 2) hsp (readFault_iff.mp ha))

/-- Settles O18. -/
theorem returnPopsThePc : Obligations.ReturnPopsThePc :=
  fun _ _ hs => ⟨rfl, rfl, exec_of_effect_ok (ret_ok (holds_iff.mp hs))⟩

/-- Settles O23: SP addresses the return address that CALL stored, which a byte holds exactly. -/
theorem callThenReturn : Obligations.CallThenReturn := by
  intro a sp v s hm hp hs ha
  refine ⟨_, exec_call_ok hp (holds_iff.mp hs) (holds_iff.mp ha), fun u hreg hread => ?_⟩
  have hsp : u.Holds 7#8 (sp - 1#8) := ⟨7, rfl, hreg.trans (getElem_setReg s regSP (sp - 1#8) 7)⟩
  have htop : u.mem.read (sp - 1#8).toNat = BitVec.ofNat 8 (s.pc + 2) :=
    hread.trans (Memory.read_write_same hm _ _)
  have hfits : (BitVec.ofNat 8 (s.pc + 2)).toNat = s.pc + 2 :=
    (BitVec.toNat_ofNat _ 8).trans (Nat.mod_eq_of_lt (Nat.add_lt_add_right hp 2))
  obtain ⟨-, -, hret⟩ := returnPopsThePc (sp - 1#8) u hsp
  rw [hret, htop, hfits, BitVec.sub_add_cancel]

/-! ### Jumps -/

/-- Settles O19. -/
theorem jumpGoesToTheRegister : Obligations.JumpGoesToTheRegister :=
  fun _ _ => ⟨rfl, rfl, fun _ ha => exec_of_effect_ok (jump_ok (holds_iff.mp ha)),
    fun _ ha => exec_of_effect_error (jump_error (readFault_iff.mp ha))⟩

/-- A `condJump` instruction meets the rule of R136: FL is read first, and x[a] only when the jump is taken. -/
theorem conditionalJump_of_condJump {mk : Byte → Instr} {opcode : Byte} {cond : Bool → Bool → Bool → Bool}
    (hbytes : ∀ a, encode (mk a) = [opcode, a])
    (heff : ∀ a s, effectOf (mk a) s = condJump (mk a) cond a s) : Rules.ConditionalJump mk opcode cond := by
  intro a s
  have hlen : (mk a).length = 2 := length_of_encode (hbytes a)
  have hflags {fl : Byte} (hfl : s.regs[4] = some fl) : readReg s regFL = .ok fl := holds_iff.mp ⟨4, rfl, hfl⟩
  have htaken {fl : Byte} (hfl : s.regs[4] = some fl)
      (hc : cond (fl.getLsbD 0) (fl.getLsbD 1) (fl.getLsbD 2) = true) : effectOf (mk a) s = jump a s :=
    (heff a s).trans (condJump_taken (hflags hfl) hc)
  refine ⟨hbytes a, hlen, fun hnone => ?_, fun fl hfl hc => ?_, fun fl target hfl hc ha => ?_,
    fun fl e hfl hc ha => ?_⟩
  · have herr : readReg s regFL = .error (.uninitialisedRegister 4#8) := readFault_iff.mp (.inr ⟨4, rfl, hnone, rfl⟩)
    exact exec_of_effect_error ((heff a s).trans (condJump_no_flags herr))
  · rw [← hlen]
    exact exec_of_effect_ok ((heff a s).trans (condJump_not_taken (hflags hfl) hc))
  · exact exec_of_effect_ok ((htaken hfl hc).trans (jump_ok (holds_iff.mp ha)))
  · exact exec_of_effect_error ((htaken hfl hc).trans (jump_error (readFault_iff.mp ha)))

/-- Settles O20: each of the six is `condJump` with its own condition. -/
theorem conditionalJumps : Obligations.ConditionalJumps :=
  ⟨conditionalJump_of_condJump (fun _ => rfl) fun _ _ => rfl,
    conditionalJump_of_condJump (fun _ => rfl) fun _ _ => rfl,
    conditionalJump_of_condJump (fun _ => rfl) fun _ _ => rfl,
    conditionalJump_of_condJump (fun _ => rfl) fun _ _ => rfl,
    conditionalJump_of_condJump (fun _ => rfl) fun _ _ => rfl,
    conditionalJump_of_condJump (fun _ => rfl) fun _ _ => rfl⟩

end Sys2Proof.Machine

/-! ## Family 43_load_io_system: LDI, PRN, the unimplemented instructions, and HLT -/

namespace Sys2Proof.Machine

/-! ### Load-immediate -/

/-- Settles O24: LDI reads no register, so the register index is all it checks. -/
theorem loadImmediate : Obligations.LoadImmediate :=
  fun _ _ _ => ⟨rfl, rfl, fun ha => exec_of_advance_ok rfl (writeReg_of_lt ha),
    fun ha => exec_of_advance_error rfl (writeReg_of_ge ha)⟩

/-! ### Output -/

theorem print_error {s : State} {a : Byte} {f : CoreFault} (ha : readReg s a = .error f) : print a s = .error f := by
  rw [print, ha, error_bind]

/-- Settles O25. -/
theorem printEmitsTheRegister : Obligations.PrintEmitsTheRegister :=
  fun _ _ => ⟨rfl, rfl, fun _ ha => exec_of_advance_ok rfl (print_ok (holds_iff.mp ha)),
    fun _ ha => exec_of_advance_error rfl (print_error (readFault_iff.mp ha))⟩

/-! ### The unimplemented instructions -/

theorem stub_ok (m : Stub) (s : State) : stub m s = .ok (emit s (.unimplemented m s.pc)) := rfl

/-- A `stub` instruction meets the rule of R178. -/
theorem unimplemented_of_stub {i : Instr} {bytes : List Byte} {m : Stub} (hbytes : encode i = bytes)
    (heff : ∀ s, effectOf i s = advance i (stub m s)) : Rules.Unimplemented i bytes m := by
  intro s
  have hlen : i.length = bytes.length := length_of_encode hbytes
  refine ⟨hbytes, hlen, ?_⟩
  rw [← hlen]
  exact exec_of_advance_ok (heff s) (stub_ok m s)

/-- Settles O26: each of the three is `stub` with its own name. -/
theorem unimplementedInstructions : Obligations.UnimplementedInstructions :=
  ⟨fun _ => unimplemented_of_stub rfl fun _ => rfl, fun _ => unimplemented_of_stub rfl fun _ => rfl,
    unimplemented_of_stub rfl fun _ => rfl⟩

/-! ### HLT -/

theorem exec_hlt (s : State) : exec .hlt s = .next { s with run := .halted } := exec_of_effect_ok rfl

/-- A halted core has no step, under any parameters (R153). -/
theorem stepWith_of_halted {s : State} (h : s.run = .halted) (cfg : Config) :
    stepWith cfg s = .fault (.notRunning .halted) := by
  have hne : s.run ≠ .running := by simp [h]
  rw [stepWith_of_not_running hne, h]

/-- Settles O27. -/
theorem haltStops : Obligations.HaltStops := by
  intro s
  refine ⟨rfl, rfl, exec_hlt s, fun t ht cfg => ?_⟩
  obtain rfl : { s with run := .halted } = t := Host.Outcome.next.inj ((exec_hlt s).symm.trans ht)
  exact stepWith_of_halted rfl cfg

end Sys2Proof.Machine

/-! ## Family 60_exceptions: the faults an instruction can raise, and the precise fault of a step -/

namespace Sys2Proof.Machine

/-! ### What each operation can raise -/

/-- Using an operand byte as a register to read raises `RegisterIndex` or `UninitialisedRegister` (R22, R24). -/
theorem code_of_readReg_error {s : State} {a : Byte} {f : CoreFault} (h : readReg s a = .error f) :
    f.code ∈ [3, 6] := by
  rcases readReg_error_cases h with ⟨-, rfl⟩ | ⟨-, rfl⟩
  · simp [CoreFault.code]
  · simp [CoreFault.code]

/-- All that a two-operand ALU operation that is total on values can raise. -/
theorem regReg_total_eq_error {g : Byte → Byte → Byte} {a b : Byte} {s : State} {f : CoreFault}
    (h : regReg (fun x y => .ok (g x y)) a b s = .error f) : readReg s a = .error f ∨ readReg s b = .error f := by
  rcases regReg_eq_error h with ha | hb | ⟨va, vb, -, -, hg⟩
  · exact .inl ha
  · exact .inr hb
  · cases hg

/-- All that DIV's operation can raise on values (R104). -/
theorem divide_eq_error {x y : Byte} {f : CoreFault} (h : divide x y = .error f) : f = .divideByZero := by
  by_cases hy : y = 0#8
  · subst hy
    exact (Except.error.inj ((divide_zero x).symm.trans h)).symm
  · cases (divide_ok hy x).symm.trans h

/-- All that MOD's operation can raise on values (R105). -/
theorem remainder_eq_error {x y : Byte} {f : CoreFault} (h : remainder x y = .error f) : f = .divideByZero := by
  by_cases hy : y = 0#8
  · subst hy
    exact (Except.error.inj ((remainder_zero x).symm.trans h)).symm
  · cases (remainder_ok hy x).symm.trans h

/-- An operation that raises `DivideByZero` alone on values adds that code to those of its operands. -/
theorem code_of_division_error {g : Byte → Byte → Except CoreFault Byte}
    (hg : ∀ {x y : Byte} {f : CoreFault}, g x y = .error f → f = .divideByZero) {a b : Byte} {s : State}
    {f : CoreFault} (h : regReg g a b s = .error f) : f.code ∈ [3, 6, 2] := by
  have hoperand : f.code ∈ [3, 6] → f.code ∈ [3, 6, 2] := List.mem_append_left [2]
  rcases regReg_eq_error h with ha | hb | ⟨va, vb, -, -, hv⟩
  · exact hoperand (code_of_readReg_error ha)
  · exact hoperand (code_of_readReg_error hb)
  · simp [hg hv, CoreFault.code]

/-- All that a register write can raise. -/
theorem writeReg_eq_error {s : State} {a v : Byte} {f : CoreFault} (h : writeReg s a v = .error f) :
    f = .registerIndex a := by
  rcases writeReg_cases s a v with ⟨-, hw⟩ | ⟨-, hw⟩
  · cases hw.symm.trans h
  · exact (Except.error.inj (hw.symm.trans h)).symm

/-- All that PUSH can raise where SP is written. -/
theorem push_eq_error {s : State} {a sp : Byte} {f : CoreFault} (hs : readReg s regSP = .ok sp)
    (h : push a s = .error f) : readReg s a = .error f := by
  cases ha : readReg s a with
  | ok va => cases (push_ok hs ha).symm.trans h
  | error g =>
    cases (push_error hs ha).symm.trans h
    rfl

/-- All that POP can raise where SP is written. -/
theorem pop_eq_error {s : State} {a sp : Byte} {f : CoreFault} (hs : readReg s regSP = .ok sp)
    (h : pop a s = .error f) : f = .registerIndex a := by
  rcases Nat.lt_or_ge a.toNat registerCount with ha | ha
  · cases (pop_ok hs ha).symm.trans h
  · exact (Except.error.inj ((pop_error hs ha).symm.trans h)).symm

/-- All that CALL can raise where SP is written. -/
theorem call_eq_error {s : State} {a sp : Byte} {f : CoreFault} (hs : readReg s regSP = .ok sp)
    (h : call a s = .error f) : f = .returnAddressOutOfRange (s.pc + 2) ∨ readReg s a = .error f := by
  rcases Nat.lt_or_ge 255 (s.pc + 2) with hp | hp
  · exact .inl (Except.error.inj ((call_error_return hp).symm.trans h)).symm
  · cases ha : readReg s a with
    | ok va => cases (call_ok hp hs ha).symm.trans h
    | error g =>
      cases (call_error_target hp hs ha).symm.trans h
      exact .inr rfl

/-- A register read whose value is then used without a check raises what the read raises. -/
theorem readReg_error_of_bind {k : Byte → State} {s : State} {a : Byte} {f : CoreFault}
    (h : (readReg s a >>= fun v => .ok (k v)) = .error f) : readReg s a = .error f := by
  rcases bind_eq_error.mp h with ha | ⟨v, -, hk⟩
  · exact ha
  · cases hk

/-- All that JMP can raise. -/
theorem jump_eq_error {s : State} {a : Byte} {f : CoreFault} (h : jump a s = .error f) : readReg s a = .error f :=
  readReg_error_of_bind h

/-- All that a conditional jump can raise: FL's fault, or that of the target when the jump is taken. -/
theorem condJump_eq_error {i : Instr} {cond : Bool → Bool → Bool → Bool} {a : Byte} {s : State} {f : CoreFault}
    (h : condJump i cond a s = .error f) : readReg s regFL = .error f ∨ readReg s a = .error f := by
  rcases bind_eq_error.mp h with hfl | ⟨fl, hfl, -⟩
  · exact .inl hfl
  · cases hc : cond (flagE fl) (flagG fl) (flagL fl) with
    | true => exact .inr (jump_eq_error ((condJump_taken hfl hc).symm.trans h))
    | false => cases (condJump_not_taken hfl hc).symm.trans h

/-- All that PRN can raise. -/
theorem print_eq_error {s : State} {a : Byte} {f : CoreFault} (h : print a s = .error f) : readReg s a = .error f :=
  readReg_error_of_bind h

/-- Where SP is written, the code of a fault that an instruction's effect raises is in its row of the table of R173. -/
theorem code_of_effectOf_error {i : Instr} {s : State} {sp : Byte} {f : CoreFault} (hs : readReg s regSP = .ok sp)
    (h : effectOf i s = .error f) : f.code ∈ i.faultCodes := by
  cases i with
  | add a b | sub a b | mul a b | and a b | or a b | xor a b | shl a b | shr a b =>
    exact (regReg_total_eq_error (advance_eq_error h)).elim code_of_readReg_error code_of_readReg_error
  | div a b => exact code_of_division_error divide_eq_error (advance_eq_error h)
  | mod a b => exact code_of_division_error remainder_eq_error (advance_eq_error h)
  | inc a | dec a | not a => exact code_of_readReg_error (regOnly_eq_error (advance_eq_error h))
  | cmp a b =>
    exact (compareOperands_eq_error (advance_eq_error h)).elim code_of_readReg_error code_of_readReg_error
  | push a => exact code_of_readReg_error (push_eq_error hs (advance_eq_error h))
  | pop a =>
    rw [pop_eq_error hs (advance_eq_error h)]
    exact List.mem_singleton_self 3
  | call a =>
    rcases call_eq_error hs h with rfl | ha
    · exact List.mem_cons_self
    · exact List.mem_cons_of_mem 5 (code_of_readReg_error ha)
  | ret => cases (ret_ok hs).symm.trans h
  | jmp a => exact code_of_readReg_error (jump_eq_error h)
  | jeq a | jne a | jgt a | jlt a | jle a | jge a =>
    simp only [effectOf] at h
    exact (condJump_eq_error h).elim code_of_readReg_error code_of_readReg_error
  | ldi a imm =>
    rw [writeReg_eq_error (advance_eq_error h)]
    exact List.mem_singleton_self 3
  | prn a => exact code_of_readReg_error (print_eq_error (advance_eq_error h))
  | pra a | int a | iret => cases (stub_ok _ s).symm.trans (advance_eq_error h)
  | hlt => cases h

/-! ### How an instruction or a step comes to `Faulted` -/

/-- An instruction takes a running core to `Faulted` only by taking the fault that its effect raised. -/
theorem exec_faulted {i : Instr} {s t : State} {f : CoreFault} (hr : s.run = .running) (h : exec i s = .next t)
    (hf : t.run = .faulted f) : effectOf i s = .error f ∧ t = takeFault s f := by
  rcases exec_cases h with hok | ⟨g, herr, rfl⟩
  · rw [(effectOf_shape hok).run_of_running hr] at hf
    split at hf <;> cases hf
  · obtain rfl : g = f := RunState.faulted.inj hf
    exact ⟨herr, rfl⟩

/-- Settles O33: the fault taken is the one the effect raised, whose code `code_of_effectOf_error` gives. -/
theorem faultsOfEachInstruction : Obligations.FaultsOfEachInstruction := by
  intro i s t f ⟨sp, hs⟩ hr h hf
  obtain ⟨herr, -⟩ := exec_faulted hr h hf
  exact code_of_effectOf_error (holds_iff.mp hs) herr

/-- Settles O38: whether the fetch raised the fault or the instruction did, the step is `takeFault` of the state with
the step counted. -/
theorem faultIsPrecise : Obligations.FaultIsPrecise := by
  intro cfg s t f h hf
  have ht : t = takeFault (beginStep s) f := by
    rcases stepWith_cases h with ⟨-, rfl⟩ | ⟨-, ⟨g, -, rfl⟩ | ⟨i, -, hexec⟩⟩
    · cases hf
    · obtain rfl : g = f := RunState.faulted.inj hf
      rfl
    · have hr : (beginStep s).run = .running := (beginStep_run s).trans (running_of_stepWith h)
      obtain ⟨-, hfault⟩ := exec_faulted hr hexec hf
      exact hfault
  exact ht

end Sys2Proof.Machine

/-! ## Family 70_reset_and_hazards: the invariant where a run starts -/

namespace Sys2Proof.Machine

/-- Settles O43: the image changes memory alone and keeps its canonical form, as `boot_inv` says. -/
theorem bootMeetsInvariant : Obligations.BootMeetsInvariant :=
  fun _ _ h => boot_inv h

end Sys2Proof.Machine
